-- ==== Sys2Proof/Word.lean ====
section
/-! DEFINITION. The two value types of CORE (spec/00_scope.md R8, R10): a Byte is 8 bits, a Word is 16 bits, both unsigned. -/

namespace Sys2Proof

/-- R8, R10: the contents of a register or of a memory cell, in [0,255]. -/
abbrev Byte := BitVec 8

/-- R8, R10: a pair value, a data address or a 16-bit literal, in [0,65535]. -/
abbrev Word := BitVec 16

end Sys2Proof
end

