-- ==== Sys2Proof/Config.lean ====
section
/-! DEFINITION. The open parameters of CORE (spec/00_scope.md R9) and its one free value. The spec says "The model takes each
one as an argument": State carries a `Params`, no step changes it, and a statement over every state holds for every value of
each parameter. `Params.default` holds the defaults of spec/92_eei_decisions.md D8, D9, D10, D12 and D19. -/

namespace Sys2Proof

/-- R20: the seven general registers, one Byte each; no banks, none hard-wired. -/
structure RegFile where
  A : Byte
  B : Byte
  C : Byte
  D : Byte
  E : Byte
  H : Byte
  L : Byte
  deriving DecidableEq, Repr

/-- R9 `INR_FLAGS` (D8): whether INR writes the flags. -/
inductive InrFlags where
  | addPolicy
  | unchanged
  deriving DecidableEq, Repr

/-- R9 `DCR_ZERO` (D9): what DCR of 0x00 stores, 0x01 (`abs`) or 0xFF (`wrap`). -/
inductive DcrZero where
  | abs
  | wrap
  deriving DecidableEq, Repr

/-- R9 `INX_AT_FFFF` (D10): whether INX of 0xFFFF is rejected under E6 or wraps to 0x0000. -/
inductive InxAtFFFF where
  | reject
  | wrap
  deriving DecidableEq, Repr

/-- R9 `OUT_FORM` (D12): whether OUT takes one byte operand or none. -/
inductive OutForm where
  | port
  | nullary
  deriving DecidableEq, Repr

/-- R9: the five open parameters; `resetRegs` is `RESET_REGS` (D19). -/
structure Params where
  inrFlags  : InrFlags
  dcrZero   : DcrZero
  inxAtFFFF : InxAtFFFF
  outForm   : OutForm
  resetRegs : RegFile
  deriving DecidableEq, Repr

/-- A register file with every register 0x00. -/
def RegFile.zero : RegFile := ⟨0, 0, 0, 0, 0, 0, 0⟩

/-- R9: every parameter at the default the spec chooses. -/
def Params.default : Params where
  inrFlags  := .addPolicy
  dcrZero   := .abs
  inxAtFFFF := .reject
  outForm   := .port
  resetRegs := .zero

/-- FREE VALUE (DESIGN CHOICE, safe: log entry 8; spec/93 U5: "The tag content is `any value`"; V93: "the tag is any value").
The label argument of the display sink when OUT has no operand. Applied to the number of such draws so far; it has no body, so nothing depends on it. -/
opaque Config.nullaryTag : Nat → String

end Sys2Proof
end

