-- ==== Sys2Proof/Syntax.lean ====
section
/-! DEFINITION. The instructions of CORE (spec/30_encoding.md R73, one constructor per row of spec/opcode_table.json), the
token record that encodes one (R70), the log entry it decodes to (R220), and the error reports (spec/60_exceptions.md). -/

namespace Sys2Proof

/-- One whitespace-separated token of a line (R84). CORE's encoding unit: it has no binary encoding. -/
abbrev Token := String

/-- R10, R80: a label name. Two names are equal iff they are the same string. -/
abbrev Label := String

/-- R20: the names of the seven stored registers. -/
inductive Reg where
  | A | B | C | D | E | H | L
  deriving DecidableEq, Repr

/-- R22: the register-name operand set {A,B,C,D,E,H,L,M}. `M` is never stored (R23). -/
inductive RegName where
  | gp (r : Reg)
  | M
  deriving DecidableEq, Repr

/-- R24: the pair-name operand set {B,D,H}; each pair is named by its first register. -/
inductive RegPair where
  | B | D | H
  deriving DecidableEq, Repr

/-- R200: the operand of OUT, a port byte under `OUT_FORM = Port` and none under `OUT_FORM = Nullary`. -/
inductive OutOperand where
  | port (b : Byte)
  | nullary
  deriving DecidableEq, Repr

/-- R73: the 21 instructions, in the order of their table index. Operands are destination first (D3). -/
inductive Instr where
  | mov (dst src : RegName)
  | mvi (dst : RegName) (data : Byte)
  | ldax (p : RegPair)
  | stax (p : RegPair)
  | lxi (p : RegPair) (data : Word)
  | add (src : RegName)
  | adi (data : Byte)
  | sub (src : RegName)
  | sui (data : Byte)
  | cmp (src : RegName)
  | cpi (data : Byte)
  | inr (r : RegName)
  | dcr (r : RegName)
  | inx (p : RegPair)
  | dcx (p : RegPair)
  | jz (target : Label)
  | jnz (target : Label)
  | jc (target : Label)
  | jnc (target : Label)
  | out (operand : OutOperand)
  | hlt
  deriving DecidableEq, Repr

/-- R70: the decoder's input record `{opcode, args, label}`. `opcode = none` is a line with no opcode token (R80). -/
structure Record where
  opcode : Option Token
  args   : List Token
  label  : Option Label
  deriving DecidableEq, Repr

/-- R220: one entry of the program log, a validated instruction and the label it carries, if any. -/
structure Entry where
  instr : Instr
  label : Option Label
  deriving DecidableEq, Repr

/-- R260: an error report `Error(code, info)`. E7 (R267) is no report but a fault (`Machine.Fault`). Every report is safe:
the rejected line or instruction changes no register, flag, memory cell, log entry, label or mode. -/
inductive ErrorReport where
  /-- E1, R261: the opcode token is not in the table; `none` for a line without an opcode. -/
  | unknownOpcode (opcode : Option Token)
  /-- E2, R262: opcode, declared argument count, supplied argument count. -/
  | arity (opcode : Token) (declared supplied : Nat)
  /-- E3, R263: opcode, argument position from 0, offending token. -/
  | constraint (opcode : Token) (position : Nat) (token : Token)
  /-- E4, R264: the label and the earlier index that holds it. -/
  | duplicateLabel (label : Label) (index : Nat)
  /-- E5, R265: DCX on a pair at 0x0000. -/
  | pairUnderflow (p : RegPair)
  /-- E6, R266: INX on a pair at 0xFFFF under `INX_AT_FFFF = Reject`. -/
  | pairOverflow (p : RegPair)
  /-- E8, R268: a byte or word literal that does not parse or does not fit its type. -/
  | literal (token : Token)
  deriving DecidableEq, Repr

end Sys2Proof
end

