-- ==== Sys2Proof/WellFormed.lean ====
section
/-! DEFINITION. When an instruction, and a log entry, is well-formed: what the types of Sys2Proof/Syntax.lean do not say by
themselves. Register names, pair names, bytes and words are legal by type (R71); what is left is the form of OUT, which must
match `OUT_FORM` (R74), and that a label is something one token of a line can spell (R80, R84). -/

namespace Sys2Proof

/-- R84: a token is a non-empty run of characters that are not white space. -/
def Token.wellFormed (t : Token) : Bool :=
  !t.toList.isEmpty && t.toList.all (fun c => !c.isWhitespace)

/-- R80: a name that `NAME:` can define: a token without a colon. -/
def Label.wellFormed (l : Label) : Bool :=
  Token.wellFormed l && l.toList.all (fun c => c != ':')

/-- R74: OUT has the operand form that `OUT_FORM` selects. -/
def OutOperand.matchesForm : OutOperand → OutForm → Bool
  | .port _, .port => true
  | .nullary, .nullary => true
  | .port _, .nullary => false
  | .nullary, .port => false

/-- Well-formedness of an instruction under the parameters `p`. A jump target is any token (R80: it is not checked). -/
def Instr.wellFormed (p : Params) : Instr → Bool
  | .mov _ _ | .mvi _ _ | .ldax _ | .stax _ | .lxi _ _ | .add _ | .adi _ | .sub _ | .sui _ | .cmp _ | .cpi _
  | .inr _ | .dcr _ | .inx _ | .dcx _ | .hlt => true
  | .jz t | .jnz t | .jc t | .jnc t => Token.wellFormed t
  | .out o => o.matchesForm p.outForm

/-- Well-formedness of a log entry: its instruction, and its label if it carries one. -/
def Entry.wellFormed (p : Params) (e : Entry) : Bool :=
  e.instr.wellFormed p && (match e.label with
    | none => true
    | some l => Label.wellFormed l)

end Sys2Proof
end

