-- ==== Sys2Proof/Decode.lean ====
section
/-! DEFINITION. From a text line to a log entry, and back (spec/30_encoding.md). CORE's encoding is at the level of tokens:
the tokenizer splits a line (R84) and finds its label (R80); the decoder looks the opcode token up in the instruction table
(R73, R75), checks literals, arity and constraints in the order of R270, and builds the instruction. The encoder writes the
tokens of an instruction from the same table. -/

namespace Sys2Proof

/-! ## The instruction table -/

/-- R71: the five operand types. -/
inductive ParamType where
  | reg | pair | byte | word | label
  deriving DecidableEq, Repr

/-- R72: a named, typed parameter of an opcode. -/
structure Param where
  name : String
  type : ParamType
  deriving DecidableEq, Repr

/-- R72, R81: the name of the handler that a table row selects. -/
inductive Opcode where
  | mov | mvi | ldax | stax | lxi | add | adi | sub | sui | cmp | cpi | inr | dcr | inx | dcx
  | jz | jnz | jc | jnc | out | hlt
  deriving DecidableEq, Repr

/-- R72: one row of the instruction table. Its index (R73) is its position. -/
structure Row where
  mnemonic : Token
  params   : List Param
  opcode   : Opcode
  deriving DecidableEq, Repr

/-- R73, R74: the parameters of OUT depend on `OUT_FORM`. -/
def outParams : OutForm → List Param
  | .port => [⟨"port", .byte⟩]
  | .nullary => []

/-- R73: the 21 rows, in index order. -/
def opcodeTable (p : Params) : List Row :=
  [ ⟨"MOV", [⟨"dst", .reg⟩, ⟨"src", .reg⟩], .mov⟩,
    ⟨"MVI", [⟨"dst", .reg⟩, ⟨"data", .byte⟩], .mvi⟩,
    ⟨"LDAX", [⟨"p", .pair⟩], .ldax⟩,
    ⟨"STAX", [⟨"p", .pair⟩], .stax⟩,
    ⟨"LXI", [⟨"p", .pair⟩, ⟨"data", .word⟩], .lxi⟩,
    ⟨"ADD", [⟨"src", .reg⟩], .add⟩,
    ⟨"ADI", [⟨"data", .byte⟩], .adi⟩,
    ⟨"SUB", [⟨"src", .reg⟩], .sub⟩,
    ⟨"SUI", [⟨"data", .byte⟩], .sui⟩,
    ⟨"CMP", [⟨"src", .reg⟩], .cmp⟩,
    ⟨"CPI", [⟨"data", .byte⟩], .cpi⟩ ] ++
  [ ⟨"INR", [⟨"r", .reg⟩], .inr⟩,
    ⟨"DCR", [⟨"r", .reg⟩], .dcr⟩,
    ⟨"INX", [⟨"p", .pair⟩], .inx⟩,
    ⟨"DCX", [⟨"p", .pair⟩], .dcx⟩,
    ⟨"JZ", [⟨"target", .label⟩], .jz⟩,
    ⟨"JNZ", [⟨"target", .label⟩], .jnz⟩,
    ⟨"JC", [⟨"target", .label⟩], .jc⟩,
    ⟨"JNC", [⟨"target", .label⟩], .jnc⟩,
    ⟨"OUT", outParams p.outForm, .out⟩,
    ⟨"HLT", [], .hlt⟩ ]

/-- R75, R86: step 1 of the decoder; the opcode token matches a mnemonic character for character. -/
def lookupRow (p : Params) (op : Token) : Option Row :=
  (opcodeTable p).find? (fun row => row.mnemonic == op)

/-! ## Operand tokens -/

/-- R22, R71: the eight register-name tokens. -/
def regTokens : List (Token × RegName) :=
  [("A", .gp .A), ("B", .gp .B), ("C", .gp .C), ("D", .gp .D), ("E", .gp .E), ("H", .gp .H), ("L", .gp .L), ("M", .M)]

/-- R24, R71: the three pair-name tokens. -/
def pairTokens : List (Token × RegPair) :=
  [("B", .B), ("D", .D), ("H", .H)]

/-- R77, R86: membership in the register set, by exact spelling. -/
def readReg (t : Token) : Option RegName :=
  (regTokens.find? (fun x => x.1 == t)).map Prod.snd

/-- R77, R86: membership in the pair set, by exact spelling. -/
def readPair (t : Token) : Option RegPair :=
  (pairTokens.find? (fun x => x.1 == t)).map Prod.snd

/-- The value of a hexadecimal digit, of either letter case (DESIGN CHOICE, unsafe: log entry 5). -/
def hexDigitValue (c : Char) : Option Nat :=
  if '0'.toNat ≤ c.toNat ∧ c.toNat ≤ '9'.toNat then some (c.toNat - '0'.toNat)
  else if 'A'.toNat ≤ c.toNat ∧ c.toNat ≤ 'F'.toNat then some (c.toNat - 'A'.toNat + 10)
  else if 'a'.toNat ≤ c.toNat ∧ c.toNat ≤ 'f'.toNat then some (c.toNat - 'a'.toNat + 10)
  else none

/-- The unsigned number that a run of hexadecimal digits spells, after `acc` (R79: no sign, no scaling). -/
def hexDigitsValue : List Char → Nat → Option Nat
  | [], acc => some acc
  | c :: cs, acc =>
    match hexDigitValue c with
    | some d => hexDigitsValue cs (acc * 16 + d)
    | none => none

/-- R84: `hex-literal := hexdigit+ [ 'H' ]`; the digits without the optional suffix. -/
def hexDigitsOf (t : Token) : List Char :=
  match t.toList.reverse with
  | 'H' :: ds => ds.reverse
  | _ => t.toList

/-- R79, R84: the value of a hex literal token; `none` if it cannot be parsed. -/
def readHex (t : Token) : Option Nat :=
  match hexDigitsOf t with
  | [] => none
  | c :: cs => hexDigitsValue (c :: cs) 0

/-- R79 (D7): a BYTE literal; a value above 0xFF is refused, not truncated. -/
def readByte (t : Token) : Option Byte :=
  match readHex t with
  | some v => if v < 256 then some (BitVec.ofNat 8 v) else none
  | none => none

/-- R79 (D7): a WORD literal; a value above 0xFFFF is refused, not truncated. -/
def readWord (t : Token) : Option Word :=
  match readHex t with
  | some v => if v < 65536 then some (BitVec.ofNat 16 v) else none
  | none => none

/-- An operand after its token has been read. -/
inductive Operand where
  | reg (r : RegName)
  | pair (p : RegPair)
  | byte (b : Byte)
  | word (w : Word)
  | label (l : Label)
  deriving DecidableEq, Repr

/-- R71: the operand a token stands for at a parameter of type `ty`; `none` if the type does not admit the token. -/
def readOperand (ty : ParamType) (t : Token) : Option Operand :=
  match ty with
  | .reg => (readReg t).map .reg
  | .pair => (readPair t).map .pair
  | .byte => (readByte t).map .byte
  | .word => (readWord t).map .word
  | .label => some (.label t)

/-- R71: which operand types the preprocessor converts; a token it cannot convert is E8 (R268). -/
def ParamType.isLiteral : ParamType → Bool
  | .byte | .word => true
  | .reg | .pair | .label => false

/-! ## Validation -/

/-- R268, R270: the first token at a BYTE or WORD parameter that is no literal of its type. -/
def firstBadLiteral : List Param → List Token → Option Token
  | q :: qs, t :: ts =>
    if q.type.isLiteral && (readOperand q.type t).isNone then some t else firstBadLiteral qs ts
  | _, _ => none

/-- R77, R263: the first position, counted from `pos`, whose token is outside its enumerated set. -/
def firstBadConstraint : List Param → List Token → Nat → Option (Nat × Token)
  | q :: qs, t :: ts, pos =>
    if (!q.type.isLiteral) && (readOperand q.type t).isNone then some (pos, t)
    else firstBadConstraint qs ts (pos + 1)
  | _, _, _ => none

/-- R270: the first check an argument list fails, in the order E8, E2, E3 (which tokens E8 looks at: DEDUCED, unsafe, log
entry 12). -/
def checkArgs (row : Row) (args : List Token) : Option ErrorReport :=
  match firstBadLiteral row.params args with
  | some t => some (.literal t)
  | none =>
    if args.length = row.params.length then
      match firstBadConstraint row.params args 0 with
      | some (pos, t) => some (.constraint row.mnemonic pos t)
      | none => none
    else some (.arity row.mnemonic row.params.length args.length)

/-- The operands of an argument list, position by position. -/
def readOperands : List Param → List Token → List Operand
  | q :: qs, t :: ts => (readOperand q.type t).toList ++ readOperands qs ts
  | _, _ => []

/-- R74, R81: the instruction that an opcode and its operands make. -/
def assemble : Opcode → List Operand → Option Instr
  | .mov, [.reg dst, .reg src] => some (.mov dst src)
  | .mvi, [.reg dst, .byte data] => some (.mvi dst data)
  | .ldax, [.pair p] => some (.ldax p)
  | .stax, [.pair p] => some (.stax p)
  | .lxi, [.pair p, .word data] => some (.lxi p data)
  | .add, [.reg src] => some (.add src)
  | .adi, [.byte data] => some (.adi data)
  | .sub, [.reg src] => some (.sub src)
  | .sui, [.byte data] => some (.sui data)
  | .cmp, [.reg src] => some (.cmp src)
  | .cpi, [.byte data] => some (.cpi data)
  | .inr, [.reg r] => some (.inr r)
  | .dcr, [.reg r] => some (.dcr r)
  | .inx, [.pair p] => some (.inx p)
  | .dcx, [.pair p] => some (.dcx p)
  | .jz, [.label t] => some (.jz t)
  | .jnz, [.label t] => some (.jnz t)
  | .jc, [.label t] => some (.jc t)
  | .jnc, [.label t] => some (.jnc t)
  | .out, [.byte b] => some (.out (.port b))
  | .out, [] => some (.out .nullary)
  | .hlt, [] => some .hlt
  | _, _ => none

/-- R75 to R78, R270: the decoder, total on every record. It answers the log entry, or the first error. The last arm is
never taken: a row whose checks pass always assembles (Sys2Proof/Laws/Decode.lean, `assemble_isSome_of_checkArgs`). -/
def decode (p : Params) (r : Record) : Except ErrorReport Entry :=
  match r.opcode with
  | none => .error (.unknownOpcode none)
  | some op =>
    match lookupRow p op with
    | none => .error (.unknownOpcode (some op))
    | some row =>
      match checkArgs row r.args with
      | some e => .error e
      | none =>
        match assemble row.opcode (readOperands row.params r.args) with
        | some i => .ok ⟨i, r.label⟩
        | none => .error (.unknownOpcode (some op))

/-! ## The tokenizer -/

/-- R84: the white-space separated tokens of a character list (what counts as white space: PRESUMED, unsafe, log entry 10;
no comment syntax and no comma: DESIGN CHOICE, unsafe, log entry 11); `acc` is the token being read, reversed. -/
def splitChars : List Char → List Char → List Token
  | [], [] => []
  | [], a :: acc => [String.ofList (a :: acc).reverse]
  | c :: cs, acc =>
    if c.isWhitespace then
      match acc with
      | [] => splitChars cs []
      | a :: acc => String.ofList (a :: acc).reverse :: splitChars cs []
    else splitChars cs (c :: acc)

/-- R84: the tokens of one text line. -/
def splitTokens (text : String) : List Token :=
  splitChars text.toList []

/-- R80: the name a leading token defines: it has exactly one colon, as its last character, with at least one character
that is not white space before it. `none` if the token is no label definition. -/
def labelDefinition (t : Token) : Option Label :=
  match t.toList.reverse with
  | ':' :: name =>
    if name.any (fun c => !c.isWhitespace) && name.all (fun c => c != ':') then some (String.ofList name.reverse) else none
  | _ => none

/-- The record of a line without its label. -/
def recordOfTokens (label : Option Label) : List Token → Record
  | [] => ⟨none, [], label⟩
  | op :: args => ⟨some op, args, label⟩

/-- R70, R80, R84: the record of a token list: an optional leading label definition, then the opcode, then its operands. -/
def readRecord : List Token → Record
  | [] => recordOfTokens none []
  | t :: ts =>
    match labelDefinition t with
    | some l => recordOfTokens (some l) ts
    | none => recordOfTokens none (t :: ts)

/-- R274: the three meta-commands of the session surface. -/
inductive MetaCommand where
  | help | quit | inspect
  deriving DecidableEq, Repr

/-- R237: what one line is to CORE. -/
inductive Line where
  | command (m : MetaCommand)
  | record (r : Record)
  deriving DecidableEq, Repr

/-- R85, R274: a meta-command is recognised "before falling through to instruction processing": a line whose only token
is its name (DESIGN CHOICE, unsafe: log entry 6). -/
def readLine (text : String) : Line :=
  match splitTokens text with
  | ["help"] => .command .help
  | ["quit"] => .command .quit
  | ["inspect"] => .command .inspect
  | ts => .record (readRecord ts)

/-! ## The encoder -/

/-- R73: the mnemonic of an instruction. -/
def Instr.mnemonic : Instr → Token
  | .mov _ _ => "MOV" | .mvi _ _ => "MVI" | .ldax _ => "LDAX" | .stax _ => "STAX" | .lxi _ _ => "LXI"
  | .add _ => "ADD" | .adi _ => "ADI" | .sub _ => "SUB" | .sui _ => "SUI" | .cmp _ => "CMP" | .cpi _ => "CPI"
  | .inr _ => "INR" | .dcr _ => "DCR" | .inx _ => "INX" | .dcx _ => "DCX"
  | .jz _ => "JZ" | .jnz _ => "JNZ" | .jc _ => "JC" | .jnc _ => "JNC" | .out _ => "OUT" | .hlt => "HLT"

/-- R22: the token of a register name. -/
def RegName.token : RegName → Token
  | .gp .A => "A" | .gp .B => "B" | .gp .C => "C" | .gp .D => "D" | .gp .E => "E" | .gp .H => "H" | .gp .L => "L"
  | .M => "M"

/-- R24: the token of a pair name. -/
def RegPair.token : RegPair → Token
  | .B => "B" | .D => "D" | .H => "H"

/-- The upper-case hexadecimal digit of a value below 16. -/
def hexDigit (n : Nat) : Char :=
  if n < 10 then Char.ofNat ('0'.toNat + n) else Char.ofNat ('A'.toNat + (n - 10))

/-- D26: "2 hex digits for a byte". -/
def byteToken (b : Byte) : Token :=
  String.ofList [hexDigit (b.toNat / 16), hexDigit (b.toNat % 16)]

/-- D26: "4 for a word". -/
def wordToken (w : Word) : Token :=
  String.ofList [hexDigit (w.toNat / 4096), hexDigit (w.toNat / 256 % 16), hexDigit (w.toNat / 16 % 16),
    hexDigit (w.toNat % 16)]

/-- R200: the argument tokens of OUT. -/
def OutOperand.tokens : OutOperand → List Token
  | .port b => [byteToken b]
  | .nullary => []

/-- R74: the argument tokens of an instruction, in order. -/
def Instr.argTokens : Instr → List Token
  | .mov dst src => [dst.token, src.token]
  | .mvi dst data => [dst.token, byteToken data]
  | .ldax p | .stax p | .inx p | .dcx p => [p.token]
  | .lxi p data => [p.token, wordToken data]
  | .add r | .sub r | .cmp r | .inr r | .dcr r => [r.token]
  | .adi data | .sui data | .cpi data => [byteToken data]
  | .jz t | .jnz t | .jc t | .jnc t => [t]
  | .out o => o.tokens
  | .hlt => []

/-- R70: the record of a log entry. -/
def encode (e : Entry) : Record :=
  ⟨some e.instr.mnemonic, e.instr.argTokens, e.label⟩

/-- R84: the tokens of the text line of a log entry, its label definition first. -/
def lineTokens (e : Entry) : List Token :=
  (match e.label with
    | some l => [String.ofList (l.toList ++ [':'])]
    | none => []) ++ e.instr.mnemonic :: e.instr.argTokens

/-- The characters of a token list, with one space before each token. -/
def joinTokens : List Token → List Char
  | [] => []
  | t :: ts => ' ' :: t.toList ++ joinTokens ts

/-- R84: the text line of a log entry. -/
def renderLine (e : Entry) : String :=
  String.ofList (joinTokens (lineTokens e))

/-! ## The host's numbering of an instruction's bits -/

/-- The characters that the low `n` bytes of `w` spell, the least significant byte first; a zero byte spells none. -/
def charsOfWord : Nat → Nat → List Char
  | 0, _ => []
  | n + 1, w =>
    if w % 256 = 0 then charsOfWord n (w / 256) else Char.ofNat (w % 256) :: charsOfWord n (w / 256)

/-- The operand token of all-zero bits, for a parameter that the given bits do not reach. -/
def zeroToken : ParamType → Token
  | .reg => "A"
  | .pair => "B"
  | .byte => "00"
  | .word => "0000"
  | .label => "0"

/-- The record with an operand token of zero for each parameter of its row that it gives no token for. -/
def padRecord (p : Params) (r : Record) : Record :=
  match r.opcode with
  | none => r
  | some op =>
    match lookupRow p op with
    | none => r
    | some row => { r with args := r.args ++ (row.params.drop r.args.length).map (fun q => zeroToken q.type) }

/-- The record that the low `nbits` bits of `w` spell as text (DESIGN CHOICE, unsafe: log entry 2): CORE has no binary encoding (R4), so an
instruction's bits are the character codes of its line, the first character in bits 7..0. -/
def recordOfWord (p : Params) (nbits w : Nat) : Record :=
  padRecord p (readRecord (splitChars (charsOfWord (nbits / 8) w) []))

/-- The instruction the decoder reads from the bits `w`, with the parameters at their defaults. -/
def decodeTableWord (nbits w : Nat) : Option Instr :=
  match decode Params.default (recordOfWord Params.default nbits w) with
  | .ok e => some e.instr
  | .error _ => none

end Sys2Proof
end

