-- ==== Sys2Proof/Machine/State.lean ====
section
/-! DEFINITION. The state of CORE as plain data (spec/10_state.md), the host's requests and CORE's answers
(spec/60_exceptions.md R282), the reasons a step can stop, and the state after reset (R40, R290). -/

namespace Sys2Proof.Machine

/-- R29: the four flags, independent bits. There is no parity, no overflow flag and no flag byte (R33). -/
structure Flags where
  /-- carry -/
  cy : Bool
  /-- auxiliary carry: "declared but never computed" (R31) -/
  ac : Bool
  /-- zero -/
  z  : Bool
  /-- sign -/
  s  : Bool
  deriving DecidableEq, Repr

/-- R50: the data memory, as the list of its non-zero cells in rising address order. An unlisted address reads 0x00
("memory is implicitly zero-initialized"). -/
abbrev Memory := List Host.Cell

/-- The canonical form of a memory: addresses strictly rising and inside the 16-bit space, no cell listed that holds what an
unlisted address reads as. -/
abbrev Memory.wf (m : Memory) : Prop :=
  m.Pairwise (fun c d => c.1 < d.1) ∧ ∀ c ∈ m, c.1 < 65536 ∧ c.2 ≠ 0

/-- R35, R222: the label index, a label and the log index of the entry that carries it, in the order of the log. -/
abbrev LabelIndex := List (Label × Nat)

/-- R221: the mode of the engine. -/
inductive Mode where
  | running
  | suspended (awaiting : Label)
  deriving DecidableEq, Repr

/-- R35, R238: the cursor `pc`, a log index during a walk and `MOST_RECENT` between walks. -/
inductive Cursor where
  | mostRecent
  | index (k : Nat)
  deriving DecidableEq, Repr

/-- R200, R281: the label argument of the display sink. -/
inductive DisplayTag where
  | port (b : Byte)
  | label (l : String)
  deriving DecidableEq, Repr

/-- R281: one event `Display(tag, value)` of the display sink. -/
structure DisplayEvent where
  tag   : DisplayTag
  value : Byte
  deriving DecidableEq, Repr

/-- R275: a persistence snapshot, its two flat mappings. The `registers` mapping names the seven stored registers and never
M, which is not stored (R23) and whose cell the `memory` mapping holds (DESIGN CHOICE, unsafe, log entry 18). -/
structure Snapshot where
  registers : List (Reg × Byte)
  memory    : List (Word × Byte)
  deriving DecidableEq, Repr

/-- R273: what the Inspect port returns: the seven registers, the four flags and the memory (the cells that are not 0x00). -/
structure Dump where
  regs  : RegFile
  flags : Flags
  mem   : Memory
  deriving DecidableEq, Repr

/-- R282: the host's requests. Reset is `State.reset`; a second reset is a new session (R290). -/
inductive HostRequest where
  /-- one text line (R237) -/
  | line (text : String)
  /-- the debug dump port (R273) -/
  | inspect
  /-- load a persistence snapshot (R275) -/
  | load (snapshot : Snapshot)
  /-- return a persistence snapshot (R275) -/
  | save
  /-- end of the run (R236) -/
  | quit
  deriving DecidableEq, Repr

/-- What CORE returns to the requester: R223 `Ok(k)`, R260 an error report, R226 the three results of `executeNext`, R273 a
dump, R275 a snapshot. -/
inductive Reply where
  | appended (index : Nat)
  | report (error : ErrorReport)
  | done
  | suspended (awaiting : Label)
  | idle
  | dumped (dump : Dump)
  | saved (snapshot : Snapshot)
  deriving DecidableEq, Repr

/-- The whole machine. `params`, `input`, `replies` and `freeDraws` are the model's own fields (DESIGN CHOICE, safe: log
entries 1, 7 and 8); every other field is a piece of state that spec/10_state.md names. Streams list their oldest item first. -/
structure State where
  /-- R9: the open parameters; no step changes them -/
  params    : Params
  /-- R20: the general registers -/
  regs      : RegFile
  /-- R29: CY, AC, Z, S -/
  flags     : Flags
  /-- R50: the data memory -/
  mem       : Memory
  /-- R220: the program log -/
  log       : List Entry
  /-- R222: the label index -/
  labels    : LabelIndex
  /-- R221: the mode -/
  mode      : Mode
  /-- R238: the cursor -/
  pc        : Cursor
  /-- R39, R281: the display-sink events -/
  display   : List DisplayEvent
  /-- R39, R260: the error reports -/
  errors    : List ErrorReport
  /-- R282: the host's requests that CORE has not taken yet -/
  input     : List HostRequest
  /-- R282: what CORE has returned to the host -/
  replies   : List Reply
  /-- how many free values have been drawn from `Config.nullaryTag` -/
  freeDraws : Nat
  deriving DecidableEq, Repr

/-- The faults. No reachable state raises either. -/
inductive Fault where
  /-- E7, R267: flag-name misuse in the flag helper, "fatal". Raised by nothing: the flag names are fixed (R34). Safe. -/
  | internalFlagName (name : String)
  /-- A walk whose cursor is past the end of the log (R228: "Fetch cannot fail"). Raised by `step` in states that no run
  reaches (DEDUCED: log entry 9). Safe. -/
  | fetchOutsideLog (index : Nat)
  deriving DecidableEq, Repr

/-- The refusals. -/
inductive Refusal where
  /-- An instruction of the table that `exec` gives no meaning yet. Raised by no arm: all 21 have one. Safe. -/
  | notModelled (mnemonic : String)
  deriving DecidableEq, Repr

/-- R40: every flag false. -/
def Flags.reset : Flags := ⟨false, false, false, false⟩

/-- R40, R290: the state after reset for given parameters: registers at `RESET_REGS`, flags false, memory 0x00, log and label
index empty, `RUNNING`, `MOST_RECENT`, streams empty. -/
def State.resetWith (p : Params) : State where
  params    := p
  regs      := p.resetRegs
  flags     := .reset
  mem       := []
  log       := []
  labels    := []
  mode      := .running
  pc        := .mostRecent
  display   := []
  errors    := []
  input     := []
  replies   := []
  freeDraws := 0

/-- R40, R290: the machine right after reset, every open parameter at its default (DESIGN CHOICE, unsafe: log
entries 1 and 3). -/
def State.reset : State := .resetWith .default

end Sys2Proof.Machine
end

