-- ==== Sys2Proof/Machine/Ops.lean ====
section
/-! DEFINITION. The named operations over registers, memory, streams and the engine's log (spec/00_scope.md R12,
spec/20_memory.md R51, spec/44_execution_engine.md). An error is reported by ONE operation, `State.report`: CORE takes no
exception and has no return from one (spec/60_exceptions.md R272). -/

namespace Sys2Proof.Machine

/-! ## Words and bytes -/

/-- R11: `w[15:8]`. -/
def highByte (w : Word) : Byte := BitVec.ofNat 8 (w.toNat / 256)

/-- R11: `w[7:0]`. -/
def lowByte (w : Word) : Byte := BitVec.ofNat 8 (w.toNat % 256)

/-- R11: `hi ++ lo`, the word `hi*256 + lo`. -/
def concatBytes (hi lo : Byte) : Word := BitVec.ofNat 16 (hi.toNat * 256 + lo.toNat)

end Sys2Proof.Machine

/-! ## Register file -/

namespace Sys2Proof

/-- R12: `x[r]`. -/
def RegFile.get (f : RegFile) : Reg → Byte
  | .A => f.A | .B => f.B | .C => f.C | .D => f.D | .E => f.E | .H => f.H | .L => f.L

/-- R12: `x[r] <- v`. -/
def RegFile.set (f : RegFile) (r : Reg) (v : Byte) : RegFile :=
  match r with
  | .A => { f with A := v } | .B => { f with B := v } | .C => { f with C := v } | .D => { f with D := v }
  | .E => { f with E := v } | .H => { f with H := v } | .L => { f with L := v }

/-- R24: the first register of a pair, its high byte. -/
def RegPair.high : RegPair → Reg
  | .B => .B | .D => .D | .H => .H

/-- R24: the second register of a pair, its low byte. -/
def RegPair.low : RegPair → Reg
  | .B => .C | .D => .E | .H => .L

/-- R25: `pair(p)`. Pairs are views, not storage (R27). -/
def RegFile.pair (f : RegFile) (p : RegPair) : Word :=
  Machine.concatBytes (f.get p.high) (f.get p.low)

/-- R26: `setpair(p, w)`. -/
def RegFile.setPair (f : RegFile) (p : RegPair) (w : Word) : RegFile :=
  (f.set p.high (Machine.highByte w)).set p.low (Machine.lowByte w)

end Sys2Proof

namespace Sys2Proof.Machine

/-! ## Data memory -/

/-- R51: the byte at address `a`; 0x00 where nothing is listed. -/
def Memory.read : Memory → Nat → Byte
  | [], _ => 0
  | c :: m, a => if c.1 = a then c.2 else Memory.read m a

/-- A memory with the cell `c` put at its place in address order. -/
def Memory.insertCell (c : Host.Cell) : Memory → Memory
  | [] => [c]
  | d :: m => if c.1 < d.1 then c :: d :: m else d :: Memory.insertCell c m

/-- R51: `mem[a] <- v`. The old cell goes; a zero is not listed, so equal memories are equal lists. -/
def Memory.write (m : Memory) (a : Nat) (v : Byte) : Memory :=
  let m' := m.filter (fun c => c.1 != a)
  if v = 0 then m' else Memory.insertCell (a, v) m'

/-- R12, R51: `MemRead(a, 1)`. -/
def State.memRead (s : State) (a : Word) : Byte := Memory.read s.mem a.toNat

/-- R12, R51: `MemWrite(a, 1, v)`. It cannot fail. -/
def State.memWrite (s : State) (a : Word) (v : Byte) : State := { s with mem := Memory.write s.mem a.toNat v }

/-! ## Output streams and errors -/

/-- R12, R281: `emit(e)`. -/
def State.emit (s : State) (e : DisplayEvent) : State := { s with display := s.display ++ [e] }

/-- R282: what CORE returns to the requester. -/
def State.reply (s : State) (r : Reply) : State := { s with replies := s.replies ++ [r] }

/-- R12, R260: `report(code, info)` and `raise`: one report on the error stream, returned to the requester as well (also for
E5, E6 and E8: DEDUCED, safe, log entry 16). -/
def State.report (s : State) (e : ErrorReport) : State :=
  { s with errors := s.errors ++ [e], replies := s.replies ++ [.report e] }

/-! ## The cursor, the label index and control transfer -/

/-- R238: the cursor after an instruction that asks for no jump; between walks there is nothing to advance (no run gets there:
DEDUCED, safe, log entry 9). -/
def Cursor.next : Cursor → Cursor
  | .mostRecent => .mostRecent
  | .index k => .index (k + 1)

/-- R222: `LABELS(l)`. -/
def LabelIndex.find : LabelIndex → Label → Option Nat
  | [], _ => none
  | (n, k) :: ls, l => if n = l then some k else LabelIndex.find ls l

/-- R231: an unresolved jump: "evaluation stops immediately" in `SUSPENDED(l)`, and the walk returns `Suspended(l)`. -/
def State.suspend (s : State) (l : Label) : State :=
  { s with mode := .suspended l, pc := .mostRecent, replies := s.replies ++ [.suspended l] }

/-- R229: what the engine does with a handler's result, `none` or `jump(l)`. -/
def State.resolve (s : State) : Option Label → State
  | none => { s with pc := s.pc.next }
  | some l =>
    match LabelIndex.find s.labels l with
    | some i => { s with pc := .index i }
    | none => s.suspend l

/-- R227, R229: the end of every instruction: the state its handler left, and the request it returned. -/
def complete (s : State) (request : Option Label) : Host.Outcome State Fault Refusal :=
  .next (s.resolve request)

/-- R223: the result of `addInstruction`. -/
inductive AppendResult where
  | ok (index : Nat)
  | rejected (index : Nat)
  deriving DecidableEq, Repr

/-- R223: the log index that already holds the label of `e`. -/
def conflictingIndex (e : Entry) (s : State) : Option Nat :=
  match e.label with
  | none => none
  | some l => LabelIndex.find s.labels l

/-- R223: the label index after `e` is appended at index `k`. -/
def labelsAfterAppend (ls : LabelIndex) (e : Entry) (k : Nat) : LabelIndex :=
  match e.label with
  | none => ls
  | some l => ls ++ [(l, k)]

/-- R224: an append resumes the engine iff the entry carries exactly the awaited label. -/
def modeAfterAppend (m : Mode) (e : Entry) : Mode :=
  match m with
  | .running => .running
  | .suspended w => if e.label = some w then .running else .suspended w

/-- R223: a valid instruction is appended in any mode (R225), unless its label is already defined (E4). It is not evaluated. -/
def addInstruction (e : Entry) (s : State) : AppendResult × State :=
  match e.label, conflictingIndex e s with
  | some l, some k => (.rejected k, s.report (.duplicateLabel l k))
  | _, _ =>
    (.ok s.log.length,
      { s with
        log := s.log ++ [e]
        labels := labelsAfterAppend s.labels e s.log.length
        mode := modeAfterAppend s.mode e
        replies := s.replies ++ [.appended s.log.length] })

/-- R226: `executeNext`. While `RUNNING` it starts a walk at the newest entry (R229) or answers `Idle` on an empty log
(R235); while `SUSPENDED` it only checks the suspension again (R234). The steps of the walk itself are `Machine.step`. -/
def executeNext (s : State) : State :=
  match s.mode with
  | .running => if s.log = [] then s.reply .idle else { s with pc := .index (s.log.length - 1) }
  | .suspended w =>
    { s with
      mode := if (LabelIndex.find s.labels w).isSome then .running else .suspended w
      replies := s.replies ++ [.suspended w] }

/-- R229: the walk has reached the end of the log: the cursor "resets to most recent" and the walk returns `Done`. -/
def finishWalk (s : State) : State :=
  { s with pc := .mostRecent, replies := s.replies ++ [.done] }

/-! ## What the machine does next -/

/-- What a step finds to do. -/
inductive Phase where
  /-- no walk in progress: CORE "waits only for the host's next request" (R280) -/
  | host
  /-- R228: the instruction fetched at the cursor -/
  | eval (i : Instr)
  /-- R229: the cursor is at the end of the log -/
  | finish
  /-- the cursor is past the end of the log, which no run reaches -/
  | outside (index : Nat)
  deriving DecidableEq, Repr

/-- R228, R229, R239: while `RUNNING` and in a walk the entry at the cursor is fetched from the log; while `SUSPENDED`, and
between walks, no instruction is evaluated. -/
def phase (s : State) : Phase :=
  match s.mode, s.pc with
  | .suspended _, _ => .host
  | .running, .mostRecent => .host
  | .running, .index k =>
    match s.log[k]? with
    | some e => .eval e.instr
    | none => if k = s.log.length then .finish else .outside k

end Sys2Proof.Machine
end

