-- ==== Sys2Proof/Machine/Operands.lean ====
section
/-! DEFINITION. The operand forms of CORE (spec/00_scope.md R12): a register name, which redirects M to memory at H:L
(spec/10_state.md R23), and a register pair (R25, R26). A byte, a word and a label are used as they stand (R79, R80). -/

namespace Sys2Proof.Machine

/-- R23: the address that M stands for, from H and L as they are now. No stale copy is kept (R38). -/
def State.hl (s : State) : Word := s.regs.pair .H

/-- R12, R23: `reg(r)`. -/
def State.reg (s : State) : RegName → Byte
  | .gp r => s.regs.get r
  | .M => s.memRead s.hl

/-- R12, R23: `setreg(r, v)`. -/
def State.setReg (s : State) (r : RegName) (v : Byte) : State :=
  match r with
  | .gp x => { s with regs := s.regs.set x v }
  | .M => s.memWrite s.hl v

/-- R12, R25: `pair(p)`, which is also `addressOfPair(p)`. -/
def State.pair (s : State) (p : RegPair) : Word := s.regs.pair p

/-- R12, R26: `setpair(p, w)`. -/
def State.setPair (s : State) (p : RegPair) (w : Word) : State := { s with regs := s.regs.setPair p w }

/-- R21: the accumulator is register A. -/
def State.acc (s : State) : Byte := s.regs.get .A

/-- R21: a write of the accumulator. -/
def State.setAcc (s : State) (v : Byte) : State := { s with regs := s.regs.set .A v }

end Sys2Proof.Machine
end

