-- ==== Sys2Proof/Machine/Flags.lean ====
section
/-! DEFINITION. The two flag-synthesis functions of the ALU (spec/41_arithmetic.md R130, R131) and the flag update helper
(spec/10_state.md R34). They differ from the Intel 8085 (spec/90_conflicts.md C8). -/

namespace Sys2Proof.Machine

/-- The result of a flag synthesis: the byte to store and the new CY, S and Z. -/
structure Synth where
  res : Byte
  cy  : Bool
  s   : Bool
  z   : Bool
  deriving DecidableEq, Repr

/-- R130: the add policy, on the exact unsigned sum. Z is decided before truncation; S is never set. -/
def addSynth (sum : Nat) : Synth :=
  if sum > 255 then ⟨BitVec.ofNat 8 (sum % 256), true, false, false⟩
  else if sum = 0 then ⟨0, false, false, true⟩
  else ⟨BitVec.ofNat 8 sum, false, false, false⟩

/-- R131: the subtract policy, on the exact difference; a negative difference stores its absolute value. -/
def subSynth (d : Int) : Synth :=
  if d < 0 then ⟨BitVec.ofNat 8 d.natAbs, true, true, false⟩
  else if d = 0 then ⟨0, false, false, true⟩
  else ⟨BitVec.ofNat 8 d.natAbs, false, false, false⟩

/-- R34: `setFlags(carry?, sign?, zero?)`, a partial update. AC is none of its flags (R31). -/
def Flags.update (f : Flags) (carry sign zero : Option Bool) : Flags :=
  { f with cy := carry.getD f.cy, s := sign.getD f.s, z := zero.getD f.z }

/-- R12: `flags <- (CY=c, S=s, Z=z)`, the helper called with all three names. -/
def State.setFlags (st : State) (y : Synth) : State :=
  { st with flags := st.flags.update (some y.cy) (some y.s) (some y.z) }

/-- R142: the exact unsigned sum of two bytes. -/
def exactSum (a b : Byte) : Nat := a.toNat + b.toNat

/-- R142: the exact difference of two bytes, not wrapped. -/
def exactDiff (a b : Byte) : Int := (a.toNat : Int) - (b.toNat : Int)

end Sys2Proof.Machine
end

