-- ==== Sys2Proof/Machine/Arithmetic.lean ====
section
/-! DEFINITION. The arithmetic family (spec/41_arithmetic.md). Every one returns `none`. -/

namespace Sys2Proof.Machine

/-- R132, R134: the result goes to A and the three flags are written together. -/
def State.accumulate (s : State) (y : Synth) : State := (s.setAcc y.res).setFlags y

/-- R132: ADD src. -/
def execAdd (src : RegName) (s : State) : Host.Outcome State Fault Refusal :=
  complete (s.accumulate (addSynth (exactSum s.acc (s.reg src)))) none

/-- R133: ADI data. -/
def execAdi (data : Byte) (s : State) : Host.Outcome State Fault Refusal :=
  complete (s.accumulate (addSynth (exactSum s.acc data))) none

/-- R134: SUB src. -/
def execSub (src : RegName) (s : State) : Host.Outcome State Fault Refusal :=
  complete (s.accumulate (subSynth (exactDiff s.acc (s.reg src)))) none

/-- R135: SUI data. -/
def execSui (data : Byte) (s : State) : Host.Outcome State Fault Refusal :=
  complete (s.accumulate (subSynth (exactDiff s.acc data))) none

/-- R136: CMP src. The result is discarded. -/
def execCmp (src : RegName) (s : State) : Host.Outcome State Fault Refusal :=
  complete (s.setFlags (subSynth (exactDiff s.acc (s.reg src)))) none

/-- R137: CPI data. -/
def execCpi (data : Byte) (s : State) : Host.Outcome State Fault Refusal :=
  complete (s.setFlags (subSynth (exactDiff s.acc data))) none

/-- R138: the flags after INR, by `INR_FLAGS`. -/
def State.setInrFlags (s : State) (y : Synth) : State :=
  match s.params.inrFlags with
  | .addPolicy => s.setFlags y
  | .unchanged => s

/-- R138: INR r. -/
def execInr (r : RegName) (s : State) : Host.Outcome State Fault Refusal :=
  let y := addSynth ((s.reg r).toNat + 1)
  complete ((s.setReg r y.res).setInrFlags y) none

/-- R139: the byte DCR stores, by `DCR_ZERO` where the difference is negative. -/
def dcrResult (p : Params) (d : Int) : Byte :=
  match p.dcrZero with
  | .abs => (subSynth d).res
  | .wrap => if d < 0 then 0xFF else (subSynth d).res

/-- R139: DCR r. The flags are always written. -/
def execDcr (r : RegName) (s : State) : Host.Outcome State Fault Refusal :=
  let d : Int := ((s.reg r).toNat : Int) - 1
  complete ((s.setReg r (dcrResult s.params d)).setFlags (subSynth d)) none

/-- R140: the state INX leaves at 0xFFFF, by `INX_AT_FFFF`: E6 with nothing changed, or the pair at 0x0000. -/
def State.inxAtTop (s : State) (p : RegPair) : State :=
  match s.params.inxAtFFFF with
  | .wrap => s.setPair p 0x0000
  | .reject => s.report (.pairOverflow p)

/-- R140: INX p. No flag is written (D11). -/
def execInx (p : RegPair) (s : State) : Host.Outcome State Fault Refusal :=
  complete (if (s.pair p).toNat < 0xFFFF then s.setPair p (s.pair p + 1) else s.inxAtTop p) none

/-- R141: DCX p. At 0x0000 it is rejected under E5 with nothing changed. -/
def execDcx (p : RegPair) (s : State) : Host.Outcome State Fault Refusal :=
  complete (if s.pair p = 0x0000 then s.report (.pairUnderflow p) else s.setPair p (s.pair p - 1)) none

end Sys2Proof.Machine
end

