-- ==== Sys2Proof/Machine/Control.lean ====
section
/-! DEFINITION. The control transfer family (spec/42_control_transfer.md). A jump only computes a request, `jump(l)` or
`none`; the engine resolves it (`State.resolve`, R229 to R231). -/

namespace Sys2Proof.Machine

/-- R180 to R183: `if <condition> then return jump(target) else return none`. -/
def jumpIf (condition : Bool) (target : Label) : Option Label :=
  if condition then some target else none

/-- R180: JZ target. -/
def execJz (target : Label) (s : State) : Host.Outcome State Fault Refusal :=
  complete s (jumpIf s.flags.z target)

/-- R181: JNZ target. -/
def execJnz (target : Label) (s : State) : Host.Outcome State Fault Refusal :=
  complete s (jumpIf (!s.flags.z) target)

/-- R182: JC target. -/
def execJc (target : Label) (s : State) : Host.Outcome State Fault Refusal :=
  complete s (jumpIf s.flags.cy target)

/-- R183: JNC target. -/
def execJnc (target : Label) (s : State) : Host.Outcome State Fault Refusal :=
  complete s (jumpIf (!s.flags.cy) target)

end Sys2Proof.Machine
end

