-- ==== Sys2Proof/Machine/DataTransfer.lean ====
section
/-! DEFINITION. The data transfer family (spec/40_data_transfer.md): "pure copy; no flag effect". Every one returns `none`. -/

namespace Sys2Proof.Machine

/-- R100: MOV dst src. The source is read, and the address of M formed, before anything is written. -/
def execMov (dst src : RegName) (s : State) : Host.Outcome State Fault Refusal :=
  complete (s.setReg dst (s.reg src)) none

/-- R101: MVI dst data. -/
def execMvi (dst : RegName) (data : Byte) (s : State) : Host.Outcome State Fault Refusal :=
  complete (s.setReg dst data) none

/-- R102: LDAX p. -/
def execLdax (p : RegPair) (s : State) : Host.Outcome State Fault Refusal :=
  complete (s.setAcc (s.memRead (s.pair p))) none

/-- R103: STAX p. -/
def execStax (p : RegPair) (s : State) : Host.Outcome State Fault Refusal :=
  complete (s.memWrite (s.pair p) s.acc) none

/-- R104: LXI p data. -/
def execLxi (p : RegPair) (data : Word) (s : State) : Host.Outcome State Fault Refusal :=
  complete (s.setPair p data) none

end Sys2Proof.Machine
end

