-- ==== Sys2Proof/Machine/OutputHalt.lean ====
section
/-! DEFINITION. The output and halt family (spec/43_output_halt.md). -/

namespace Sys2Proof.Machine

/-- R200: the display event of OUT, and the draw of a free tag where OUT has no operand (spec/93 U5). -/
def State.displayAcc (s : State) : OutOperand → State
  | .port b => s.emit ⟨.port b, s.acc⟩
  | .nullary =>
    { s.emit ⟨.label (Config.nullaryTag s.freeDraws), s.acc⟩ with freeDraws := s.freeDraws + 1 }

/-- R200: OUT. "no state mutation": one event on the display sink and nothing else. -/
def execOut (operand : OutOperand) (s : State) : Host.Outcome State Fault Refusal :=
  complete (s.displayAcc operand) none

/-- R201: HLT: "no-op terminal marker"; it stops nothing. -/
def execHlt (s : State) : Host.Outcome State Fault Refusal :=
  complete s none

end Sys2Proof.Machine
end

