-- ==== Sys2Proof/Machine/Dispatch.lean ====
section
/-! DEFINITION. The closed dispatch of spec/30_encoding.md R81: one arm per instruction, each a direct call of its meaning. -/

namespace Sys2Proof.Machine

/-- R81, R227, R229: one instruction, evaluated and its request resolved by the engine, is one atomic step. -/
def exec (i : Instr) (s : State) : Host.Outcome State Fault Refusal :=
  match i with
  | .mov dst src => Sys2Proof.Machine.execMov dst src s
  | .mvi dst data => Sys2Proof.Machine.execMvi dst data s
  | .ldax p => Sys2Proof.Machine.execLdax p s
  | .stax p => Sys2Proof.Machine.execStax p s
  | .lxi p data => Sys2Proof.Machine.execLxi p data s
  | .add src => Sys2Proof.Machine.execAdd src s
  | .adi data => Sys2Proof.Machine.execAdi data s
  | .sub src => Sys2Proof.Machine.execSub src s
  | .sui data => Sys2Proof.Machine.execSui data s
  | .cmp src => Sys2Proof.Machine.execCmp src s
  | .cpi data => Sys2Proof.Machine.execCpi data s
  | .inr r => Sys2Proof.Machine.execInr r s
  | .dcr r => Sys2Proof.Machine.execDcr r s
  | .inx p => Sys2Proof.Machine.execInx p s
  | .dcx p => Sys2Proof.Machine.execDcx p s
  | .jz target => Sys2Proof.Machine.execJz target s
  | .jnz target => Sys2Proof.Machine.execJnz target s
  | .jc target => Sys2Proof.Machine.execJc target s
  | .jnc target => Sys2Proof.Machine.execJnc target s
  | .out operand => Sys2Proof.Machine.execOut operand s
  | .hlt => Sys2Proof.Machine.execHlt s

end Sys2Proof.Machine
end

