-- ==== Sys2Proof/Machine/HostPort.lean ====
section
/-! DEFINITION. What CORE does with a request of the host (spec/60_exceptions.md R273 to R275, R282;
spec/44_execution_engine.md R237). A request is taken only between walks (R233). -/

namespace Sys2Proof.Machine

/-- R273: `dump()`. -/
def State.dump (s : State) : Dump := ⟨s.regs, s.flags, s.mem⟩

/-- R275: the `registers` mapping of a snapshot. -/
def registerMapping (f : RegFile) : List (Reg × Byte) :=
  [(.A, f.A), (.B, f.B), (.C, f.C), (.D, f.D), (.E, f.E), (.H, f.H), (.L, f.L)]

/-- R275: the `memory` mapping of a snapshot: the cells that are not 0x00. -/
def memoryMapping (m : Memory) : List (Word × Byte) :=
  m.map (fun c => (BitVec.ofNat 16 c.1, c.2))

/-- R275: `save()`. -/
def State.snapshot (s : State) : Snapshot := ⟨registerMapping s.regs, memoryMapping s.mem⟩

/-- R275: the named registers over the reset values; the last one wins where a name comes twice (DEDUCED, unsafe: log
entry 13). -/
def registersOf (f : RegFile) (named : List (Reg × Byte)) : RegFile :=
  named.foldl (fun f x => f.set x.1 x.2) f

/-- R275: the listed cells over a memory of 0x00. -/
def memoryOf (listed : List (Word × Byte)) : Memory :=
  listed.foldl (fun m x => Memory.write m x.1.toNat x.2) []

/-- R275: `load(snapshot)`. Registers not named take their reset values, cells not listed read 0x00; flags, log, label index
and mode are left alone (D25). -/
def State.load (s : State) (x : Snapshot) : State :=
  { s with regs := registersOf s.params.resetRegs x.registers, mem := memoryOf x.memory }

/-- R236: after `quit` the host sends nothing more (DESIGN CHOICE, safe: log entry 7). -/
def State.endRun (s : State) : State := { s with input := [] }

/-- R237: a record is decoded (E8, E1, E2, E3: report, stop), appended (E4: report, stop), and then `executeNext` runs. -/
def processRecord (r : Record) (s : State) : State :=
  match decode s.params r with
  | .error e => s.report e
  | .ok e =>
    match addInstruction e s with
    | (.ok _, s') => executeNext s'
    | (.rejected _, s') => s'

/-- R274: what a meta-command is to CORE: `help` is invisible, `quit` ends the run, `inspect` is a dump request. -/
def runCommand (c : MetaCommand) (s : State) : State :=
  match c with
  | .help => s
  | .quit => s.endRun
  | .inspect => s.reply (.dumped s.dump)

/-- R237: the host cycle on one text line. -/
def processLine (text : String) (s : State) : State :=
  match readLine text with
  | .command c => runCommand c s
  | .record r => processRecord r s

/-- R282: one request of the host. -/
def serve (q : HostRequest) (s : State) : State :=
  match q with
  | .line text => processLine text s
  | .inspect => s.reply (.dumped s.dump)
  | .load x => s.load x
  | .save => s.reply (.saved s.snapshot)
  | .quit => s.endRun

/-- R280, R291: between walks CORE takes the host's next request; without one it waits, and nothing changes. -/
def hostStep (s : State) : State :=
  match s.input with
  | [] => s
  | q :: rest => serve q { s with input := rest }

/-- The state in which the entry `e` is the newest of the log and a walk has just started at it. -/
def State.placeEntry (s : State) (e : Entry) : State :=
  { s with log := s.log ++ [e], mode := .running, pc := .index s.log.length }

/-- Where an instruction given as bits goes (DESIGN CHOICE, unsafe: log entry 2): its entry to the end of the log, with the walk at it. A record
that does not decode enters no log (R78): its tokens go to the front of the host's input instead, where the next step
rejects them. -/
def State.placeRecord (s : State) (r : Record) : State :=
  match decode s.params r with
  | .ok e => s.placeEntry e
  | .error _ =>
    { s with
      pc := .mostRecent
      input := .line (String.ofList (joinTokens (r.opcode.toList ++ r.args))) :: s.input }

end Sys2Proof.Machine
end

