-- ==== Sys2Proof/Machine/Step.lean ====
section
/-! DEFINITION. One step of the machine: the evaluation of one instruction of a walk, the end of a walk, or one request of
the host (spec/44_execution_engine.md R229, R237). -/

namespace Sys2Proof.Machine

/-- R229, R237: a walk in progress goes on, one instruction a step, until the end of the log or a suspension; between walks
the next host request is served (what one step is: DESIGN CHOICE, safe, log entry 4). -/
def step (s : State) : Host.Outcome State Fault Refusal :=
  match phase s with
  | .host => .next (hostStep s)
  | .eval i => exec i s
  | .finish => .next (finishWalk s)
  | .outside k => .fault (.fetchOutsideLog k)

/-- The state `s` with the instruction that the low `nbits` bits of `w` spell placed where the next step fetches it: at the
end of the log, with the walk at it (log entry 2). -/
def State.withFetchWord (s : State) (nbits w : Nat) : State :=
  s.placeRecord (recordOfWord s.params nbits w)

end Sys2Proof.Machine
end

