-- ==== Sys2Proof/Safety.lean ====
section
/-! DEFINITION. The words the statements use: frames (what a step leaves alone), what the writes of the spec's primitives
leave, and the invariants of the machine. -/

namespace Sys2Proof.Machine

/-! ## Frames -/

/-- Every byte of data memory reads as before. -/
def SameMemory (s t : State) : Prop :=
  ∀ a : Nat, Memory.read t.mem a = Memory.read s.mem a

/-- Every register outside `written` holds what it held. -/
def SameRegsExcept (written : List Reg) (s t : State) : Prop :=
  ∀ r : Reg, r ∉ written → t.regs.get r = s.regs.get r

/-- The engine (R35) and the pending requests are as before; `pc` is said apart. -/
structure SameEngine (s t : State) : Prop where
  params : t.params = s.params
  log    : t.log = s.log
  labels : t.labels = s.labels
  mode   : t.mode = s.mode
  input  : t.input = s.input

/-- Both output streams (R39), what CORE returned, and the free draws are as before. -/
structure SameStreams (s t : State) : Prop where
  display   : t.display = s.display
  errors    : t.errors = s.errors
  replies   : t.replies = s.replies
  freeDraws : t.freeDraws = s.freeDraws

/-- Registers, flags and memory, the Machine State of the source, are the same data. -/
structure SameMachineState (s t : State) : Prop where
  regs  : t.regs = s.regs
  flags : t.flags = s.flags
  mem   : t.mem = s.mem

/-- One error report and nothing else: `e` on the error stream and returned to the requester (R260). -/
structure Reported (e : ErrorReport) (s t : State) : Prop where
  errors    : t.errors = s.errors ++ [e]
  replies   : t.replies = s.replies ++ [.report e]
  display   : t.display = s.display
  freeDraws : t.freeDraws = s.freeDraws

/-- The register name `r` was written with `v`, M at the address that H:L had before (R23); every other register and every
other byte of memory is as before. -/
structure OperandWritten (r : RegName) (v : Byte) (s t : State) : Prop where
  regs : ∀ x : Reg, t.regs.get x = if r = .gp x then v else s.regs.get x
  mem  : ∀ a : Nat, Memory.read t.mem a = if r = .M ∧ a = (s.regs.pair .H).toNat then v else Memory.read s.mem a

/-- The flags were written with these values; AC was not (R31). -/
structure FlagsWritten (cy sn z : Bool) (s t : State) : Prop where
  carry : t.flags.cy = cy
  sign  : t.flags.s = sn
  zero  : t.flags.z = z
  aux   : t.flags.ac = s.flags.ac

/-- What an instruction that returns no request leaves of the engine: all of it, with `pc` advanced by one (R238). -/
structure Advanced (s t : State) : Prop where
  engine : SameEngine s t
  pc     : t.pc = s.pc.next

/-- What a conditional jump to `l` does, `taken` or not (R229, R231): a jump that is not taken advances; one to a present
label moves the cursor there; one to an absent label suspends the engine and ends the walk. -/
structure JumpOutcome (taken : Bool) (l : Label) (s t : State) : Prop where
  machine    : SameMachineState s t
  params     : t.params = s.params
  log        : t.log = s.log
  labels     : t.labels = s.labels
  input      : t.input = s.input
  display    : t.display = s.display
  errors     : t.errors = s.errors
  freeDraws  : t.freeDraws = s.freeDraws
  notTaken   : taken = false → t.pc = s.pc.next ∧ t.mode = s.mode ∧ t.replies = s.replies
  present    : taken = true → ∀ k, LabelIndex.find s.labels l = some k →
                 t.pc = .index k ∧ t.mode = s.mode ∧ t.replies = s.replies
  absent     : taken = true → LabelIndex.find s.labels l = none →
                 t.pc = .mostRecent ∧ t.mode = .suspended l ∧ t.replies = s.replies ++ [.suspended l]

/-! ## Which instructions do what -/

/-- R30: the instructions that write CY, S and Z under the parameters `p`. -/
def writesFlags (p : Params) : Instr → Bool
  | .add _ | .adi _ | .sub _ | .sui _ | .cmp _ | .cpi _ | .dcr _ => true
  | .inr _ => p.inrFlags == .addPolicy
  | .mov _ _ | .mvi _ _ | .ldax _ | .stax _ | .lxi _ _ | .inx _ | .dcx _ | .jz _ | .jnz _ | .jc _ | .jnc _ | .out _
  | .hlt => false

/-- R227: the instructions that can return a jump request. -/
def isJump : Instr → Bool
  | .jz _ | .jnz _ | .jc _ | .jnc _ => true
  | .mov _ _ | .mvi _ _ | .ldax _ | .stax _ | .lxi _ _ | .add _ | .adi _ | .sub _ | .sui _ | .cmp _ | .cpi _ | .inr _
  | .dcr _ | .inx _ | .dcx _ | .out _ | .hlt => false

/-- R200: the instruction that drives the display sink. -/
def isOut : Instr → Bool
  | .out _ => true
  | .mov _ _ | .mvi _ _ | .ldax _ | .stax _ | .lxi _ _ | .add _ | .adi _ | .sub _ | .sui _ | .cmp _ | .cpi _ | .inr _
  | .dcr _ | .inx _ | .dcx _ | .jz _ | .jnz _ | .jc _ | .jnc _ | .hlt => false

/-- R53, R103: the address of the one byte of memory that an instruction may write in the state `s`. -/
def storeAddress (i : Instr) (s : State) : Option Word :=
  match i with
  | .mov .M _ | .mvi .M _ | .inr .M | .dcr .M => some (s.regs.pair .H)
  | .stax p => some (s.regs.pair p)
  | .mov (.gp _) _ | .mvi (.gp _) _ | .inr (.gp _) | .dcr (.gp _) | .ldax _ | .lxi _ _ | .add _ | .adi _ | .sub _ | .sui _
  | .cmp _ | .cpi _ | .inx _ | .dcx _ | .jz _ | .jnz _ | .jc _ | .jnc _ | .out _ | .hlt => none

/-- R273, R275: a request that is answered from the state and changes none of it. -/
def isReadOnly : HostRequest → Bool
  | .inspect | .save => true
  | .line _ | .load _ | .quit => false

/-! ## Literals -/

/-- A hexadecimal digit and its value, capital or lower-case (lower case: DESIGN CHOICE, unsafe, log entry 5). -/
def HexDigitOf (c : Char) (d : Nat) : Prop :=
  "0123456789ABCDEF".toList[d]? = some c ∨ "0123456789abcdef".toList[d]? = some c

/-- R79: a non-empty run of hexadecimal digits and the unsigned number it spells, its first digit the most significant. -/
def HexRun (cs : List Char) (v : Nat) : Prop :=
  cs ≠ [] ∧ ∃ ds, List.Forall₂ HexDigitOf cs ds ∧ v = Nat.ofDigits 16 ds.reverse

/-- R84: `hex-literal := hexdigit+ [ 'H' ]`, and its value. -/
def HexLiteral (t : Token) (v : Nat) : Prop :=
  ∃ cs, HexRun cs v ∧ (t.toList = cs ∨ t.toList = cs ++ ['H'])

/-- R268: the token at argument position `k` stands at a BYTE or WORD parameter of the row and is no literal of that type. -/
def BadLiteralAt (row : Row) (args : List Token) (k : Nat) (t : Token) : Prop :=
  args[k]? = some t ∧ ∃ q, row.params[k]? = some q ∧
    (q.type = .byte ∧ readByte t = none ∨ q.type = .word ∧ readWord t = none)

/-- Between walks, and while suspended, CORE takes the host's next request (R233, R280). -/
def TakesRequest (s : State) : Prop := s.mode ≠ .running ∨ s.pc = .mostRecent

/-! ## Invariants -/

/-- R222: the label index that a log determines, from log index `k` on. -/
def labelIndexFrom : Nat → List Entry → LabelIndex
  | _, [] => []
  | k, e :: es =>
    match e.label with
    | some l => (l, k) :: labelIndexFrom (k + 1) es
    | none => labelIndexFrom (k + 1) es

/-- R221, R229, R238: `pc` stays in 0..len(LOG) during a walk; a suspended engine is between walks and awaits a label that
is not defined. -/
def modeCursorOk (s : State) : Prop :=
  match s.mode with
  | .running =>
    match s.pc with
    | .mostRecent => True
    | .index k => k ≤ s.log.length
  | .suspended l => s.pc = .mostRecent ∧ LabelIndex.find s.labels l = none

/-- The invariant of the machine. -/
structure Inv (s : State) : Prop where
  /-- the memory is in its canonical form -/
  memory : Memory.wf s.mem
  /-- R222: `LABELS(l) = k` iff entry k carries label l -/
  labels : s.labels = labelIndexFrom 0 s.log
  /-- R222: "label names are unique across the whole log" -/
  unique : (s.labels.map Prod.fst).Nodup
  /-- R220: every entry is a validated instruction -/
  entries : ∀ e ∈ s.log, e.wellFormed s.params = true
  /-- R221, R238 -/
  cursor : modeCursorOk s

/-- R31, R130, R131: AC is false, S is set only with CY, and CY and Z are never set together. -/
structure FlagsCoherent (f : Flags) : Prop where
  ac : f.ac = false
  sign : f.s = true → f.cy = true
  zero : f.z = true → f.cy = false

/-- What the host's interface cannot undo (R220, R39): the log and the streams only grow. -/
structure OnlyGrows (s t : State) : Prop where
  log     : s.log <+: t.log
  labels  : ∀ l k, LabelIndex.find s.labels l = some k → LabelIndex.find t.labels l = some k
  display : s.display <+: t.display
  errors  : s.errors <+: t.errors
  replies : s.replies <+: t.replies
  params  : t.params = s.params

end Sys2Proof.Machine
end

