-- ==== Sys2Proof/Certificates/Slice0/Obligations.lean ====
section
/-! DEFINITION. The statements for the provers. Each holds for every value of the open parameters (spec/00_scope.md R9),
because `State` carries them. Rule numbers are those of spec/. -/

open Sys2Proof Sys2Proof.Machine

/-! ## Encoding -/

/-- One record of each format (R74) decodes to the instruction it spells. -/
def Obligations.SpecRecordsDecode : Prop :=
  decode .default ⟨some "MOV", ["B", "A"], none⟩ = .ok ⟨.mov (.gp .B) (.gp .A), none⟩ ∧
  decode .default ⟨some "MVI", ["M", "2A"], none⟩ = .ok ⟨.mvi .M 0x2A, none⟩ ∧
  decode .default ⟨some "LDAX", ["D"], none⟩ = .ok ⟨.ldax .D, none⟩ ∧
  decode .default ⟨some "LXI", ["H", "3344"], none⟩ = .ok ⟨.lxi .H 0x3344, none⟩ ∧
  decode .default ⟨some "ADI", ["02"], some "LOOP"⟩ = .ok ⟨.adi 0x02, some "LOOP"⟩ ∧
  decode .default ⟨some "DCR", ["B"], none⟩ = .ok ⟨.dcr (.gp .B), none⟩ ∧
  decode .default ⟨some "JNZ", ["LOOP"], none⟩ = .ok ⟨.jnz "LOOP", none⟩ ∧
  decode .default ⟨some "OUT", ["01"], none⟩ = .ok ⟨.out (.port 0x01), none⟩ ∧
  decode .default ⟨some "HLT", [], some "DONE"⟩ = .ok ⟨.hlt, some "DONE"⟩

/-- The decoder gives every well-formed entry back from its record, each operand at every value. -/
def Obligations.DecodeInvertsEncode : Prop :=
  ∀ (p : Params) (e : Entry), e.wellFormed p = true → decode p (encode e) = .ok e

/-- The tokenizer gives the record of every well-formed entry back from its text line, the label included (R80, R84). It
rests on the model's choices: no comment or comma syntax that could take a token away (DESIGN CHOICE, unsafe, log entry 11)
and the set of white-space characters (PRESUMED, log entry 10). -/
def Obligations.ReadLineInvertsRenderLine : Prop :=
  ∀ (p : Params) (e : Entry), e.wellFormed p = true → readLine (renderLine e) = .record (encode e)

/-- What a line decodes to is well-formed: a validated entry (R220). -/
def Obligations.DecodedLineIsWellFormed : Prop :=
  ∀ (p : Params) (text : String) (r : Record) (e : Entry),
    readLine text = .record r → decode p r = .ok e → e.wellFormed p = true

/-- A record decodes only to an instruction of its own mnemonic, arity and label (R76, R81). -/
def Obligations.DecodeKeepsMnemonicArityAndLabel : Prop :=
  ∀ (p : Params) (r : Record) (e : Entry), decode p r = .ok e →
    r.opcode = some e.instr.mnemonic ∧ r.args.length = e.instr.argTokens.length ∧ r.label = e.label

/-- R75, R261: an opcode token that is none of the 21 is rejected with E1 and changes nothing else. That a label without an
opcode is E1 is the spec's choice D27, and that a blank line is E1 is the model's (DEDUCED, log entry 12). -/
def Obligations.UnknownOpcodeIsRejected : Prop :=
  ∀ (op : Option Token) (args : List Token) (label : Option Label) (s : State),
    (∀ m ∈ ["MOV", "MVI", "LDAX", "STAX", "LXI", "ADD", "ADI", "SUB", "SUI", "CMP", "CPI", "INR", "DCR", "INX", "DCX", "JZ",
        "JNZ", "JC", "JNC", "OUT", "HLT"], op ≠ some m) →
    decode s.params ⟨op, args, label⟩ = .error (.unknownOpcode op) ∧
    (let t := processRecord ⟨op, args, label⟩ s
     SameMachineState s t ∧ SameEngine s t ∧ t.pc = s.pc ∧ Reported (.unknownOpcode op) s t)

/-- R76, R270: a wrong argument count is E2 with the declared and the supplied count where every token at a BYTE or WORD
position reads, and otherwise E8 with the first that does not. That E8 looks at the positions of the row, whatever the count,
is the model's reading (DEDUCED, log entry 12); that it comes before E2 is the spec's choice D22. -/
def Obligations.ArityMismatchIsRejected : Prop :=
  ∀ (p : Params) (i : Instr) (row : Row) (args : List Token) (label : Option Label),
    i.wellFormed p = true → lookupRow p i.mnemonic = some row → args.length ≠ i.argTokens.length →
    ((∀ k t, ¬ BadLiteralAt row args k t) →
      decode p ⟨some i.mnemonic, args, label⟩ = .error (.arity i.mnemonic i.argTokens.length args.length)) ∧
    (∀ k t, BadLiteralAt row args k t → (∀ j u, j < k → ¬ BadLiteralAt row args j u) →
      decode p ⟨some i.mnemonic, args, label⟩ = .error (.literal t))

/-- R77: an argument outside its enumerated set is E3, with the position of the first such argument. -/
def Obligations.ConstraintViolationIsRejected : Prop :=
  ∀ (p : Params) (label : Option Label) (t u : Token),
    let regs : List Token := ["A", "B", "C", "D", "E", "H", "L", "M"]
    let pairs : List Token := ["B", "D", "H"]
    (t ∉ regs → decode p ⟨some "MOV", [t, u], label⟩ = .error (.constraint "MOV" 0 t)) ∧
    (t ∈ regs → u ∉ regs → decode p ⟨some "MOV", [t, u], label⟩ = .error (.constraint "MOV" 1 u)) ∧
    (t ∉ regs → readByte u ≠ none → decode p ⟨some "MVI", [t, u], label⟩ = .error (.constraint "MVI" 0 t)) ∧
    (t ∉ pairs → readWord u ≠ none → decode p ⟨some "LXI", [t, u], label⟩ = .error (.constraint "LXI" 0 t)) ∧
    (∀ m ∈ ["ADD", "SUB", "CMP", "INR", "DCR"], t ∉ regs → decode p ⟨some m, [t], label⟩ = .error (.constraint m 0 t)) ∧
    (∀ m ∈ ["LDAX", "STAX", "INX", "DCX"], t ∉ pairs → decode p ⟨some m, [t], label⟩ = .error (.constraint m 0 t))

/-- R79, R268: a literal that does not parse or does not fit its type is E8, whatever else the line holds. -/
def Obligations.BadLiteralIsRefused : Prop :=
  ∀ (p : Params) (label : Option Label) (t u : Token),
    (∀ m ∈ ["ADI", "SUI", "CPI"], readByte t = none → decode p ⟨some m, [t], label⟩ = .error (.literal t)) ∧
    (p.outForm = .port → readByte t = none → decode p ⟨some "OUT", [t], label⟩ = .error (.literal t)) ∧
    (readByte u = none → decode p ⟨some "MVI", [t, u], label⟩ = .error (.literal u)) ∧
    (readWord u = none → decode p ⟨some "LXI", [t, u], label⟩ = .error (.literal u))

/-- R79, R84 (D7): exactly the non-empty runs of hex digits, with or without the suffix `H`, short ones and leading zeros
included, read as a byte or a word, as the unsigned number they spell; one that does not fit its type is refused, not
truncated. That digits of either letter case are read is the model's choice (DESIGN CHOICE, unsafe, log entry 5). -/
def Obligations.HexLiteralsReadAsUnsigned : Prop :=
  (∀ b : Byte, readByte (byteToken b) = some b ∧ readByte (byteToken b ++ "H") = some b) ∧
  (∀ w : Word, readWord (wordToken w) = some w ∧ readWord (wordToken w ++ "H") = some w ∧
    (256 ≤ w.toNat → readByte (wordToken w) = none)) ∧
  (∀ (t : Token) (b : Byte), readByte t = some b ↔ HexLiteral t b.toNat) ∧
  (∀ (t : Token) (w : Word), readWord t = some w ↔ HexLiteral t w.toNat) ∧
  (∀ (t : Token) (v : Nat), HexLiteral t v →
    (0xFF < v → readByte t = none) ∧ (0xFFFF < v → readWord t = none))

/-! ## Primitives -/

/-- R23: M is the memory cell at H:L, for reading and for writing, and follows every write of H or L. -/
def Obligations.MNamesMemoryAtHL : Prop :=
  ∀ (s : State) (v : Byte),
    s.reg .M = Memory.read s.mem (s.regs.H.toNat * 256 + s.regs.L.toNat) ∧
    (∀ a, Memory.read (s.setReg .M v).mem a =
      if a = s.regs.H.toNat * 256 + s.regs.L.toNat then v else Memory.read s.mem a) ∧
    (s.setReg .M v).regs = s.regs ∧
    (s.setReg (.gp .H) v).reg .M = Memory.read s.mem (v.toNat * 256 + s.regs.L.toNat) ∧
    (s.setReg (.gp .L) v).reg .M = Memory.read s.mem (s.regs.H.toNat * 256 + v.toNat)

/-- R25, R26: a pair reads as its two registers, the first one the high byte, and is written by splitting the word. -/
def Obligations.PairsAreTwoRegisters : Prop :=
  ∀ (s : State) (w : Word),
    (s.pair .B).toNat = s.regs.B.toNat * 256 + s.regs.C.toNat ∧
    (s.pair .D).toNat = s.regs.D.toNat * 256 + s.regs.E.toNat ∧
    (s.pair .H).toNat = s.regs.H.toNat * 256 + s.regs.L.toNat ∧
    (let f := (s.setPair .B w).regs
     f.B.toNat = w.toNat / 256 ∧ f.C.toNat = w.toNat % 256 ∧ SameRegsExcept [.B, .C] s (s.setPair .B w)) ∧
    (let f := (s.setPair .D w).regs
     f.D.toNat = w.toNat / 256 ∧ f.E.toNat = w.toNat % 256 ∧ SameRegsExcept [.D, .E] s (s.setPair .D w)) ∧
    (let f := (s.setPair .H w).regs
     f.H.toNat = w.toNat / 256 ∧ f.L.toNat = w.toNat % 256 ∧ SameRegsExcept [.H, .L] s (s.setPair .H w))

/-- R51: a read gives the last byte written to its address, and 0x00 where nothing was written since reset. R61, R275: after a
snapshot load it gives the byte the snapshot lists for the address, or 0x00; that an unlisted cell reads 0x00 whatever the
session held before is the model's reading (DEDUCED, unsafe, log entry 13). -/
def Obligations.MemoryReadsLastWrite : Prop :=
  (∀ (s : State) (a b : Word) (v : Byte), (s.memWrite a v).memRead b = if b = a then v else s.memRead b) ∧
  (∀ (p : Params) (a : Word), (State.resetWith p).memRead a = 0x00) ∧
  (∀ (s : State) (x : Snapshot) (a : Word), (x.memory.map Prod.fst).Nodup →
    (∀ v, (a, v) ∈ x.memory → (s.load x).memRead a = v) ∧
    (a ∉ x.memory.map Prod.fst → (s.load x).memRead a = 0x00))

/-! ## Data transfer -/

/-- R100: MOV copies the source, read first, and writes no flag. -/
def Obligations.MovCopies : Prop :=
  ∀ (dst src : RegName) (s : State), ∃ t, exec (.mov dst src) s = .next t ∧
    OperandWritten dst (s.reg src) s t ∧ t.flags = s.flags ∧ SameStreams s t ∧ Advanced s t

/-- R100: `MOV r r`, `MOV M M` included, changes nothing but the cursor (in states whose memory is in its canonical form,
`Inv.memory`). -/
def Obligations.MovToItselfChangesNothing : Prop :=
  ∀ (r : RegName) (s : State), Memory.wf s.mem → exec (.mov r r) s = .next { s with pc := s.pc.next }

/-- R101: MVI writes its byte and no flag. -/
def Obligations.MviLoadsImmediate : Prop :=
  ∀ (dst : RegName) (data : Byte) (s : State), ∃ t, exec (.mvi dst data) s = .next t ∧
    OperandWritten dst data s t ∧ t.flags = s.flags ∧ SameStreams s t ∧ Advanced s t

/-- R102: LDAX loads A from the address in the pair. -/
def Obligations.LdaxLoadsFromPairAddress : Prop :=
  ∀ (p : RegPair) (s : State), ∃ t, exec (.ldax p) s = .next t ∧
    t.regs.get .A = Memory.read s.mem (s.regs.pair p).toNat ∧ SameRegsExcept [.A] s t ∧ SameMemory s t ∧
    t.flags = s.flags ∧ SameStreams s t ∧ Advanced s t

/-- R103: STAX stores A at the address in the pair and nowhere else. -/
def Obligations.StaxStoresAtPairAddress : Prop :=
  ∀ (p : RegPair) (s : State), ∃ t, exec (.stax p) s = .next t ∧
    (∀ a : Nat, Memory.read t.mem a = if a = (s.regs.pair p).toNat then s.regs.get .A else Memory.read s.mem a) ∧
    t.regs = s.regs ∧ t.flags = s.flags ∧ SameStreams s t ∧ Advanced s t

/-- R104: LXI splits its word over the two registers of the pair. -/
def Obligations.LxiSplitsItsWord : Prop :=
  ∀ (p : RegPair) (data : Word) (s : State), ∃ t, exec (.lxi p data) s = .next t ∧
    (t.regs.get p.high).toNat = data.toNat / 256 ∧ (t.regs.get p.low).toNat = data.toNat % 256 ∧
    SameRegsExcept [p.high, p.low] s t ∧ SameMemory s t ∧ t.flags = s.flags ∧ SameStreams s t ∧ Advanced s t

/-! ## Arithmetic -/

/-- R130, R132, R133: ADD and ADI store the exact sum mod 256 in A; CY iff the sum exceeds 255, Z iff the sum is 0 before
truncation, S never. -/
def Obligations.AdditionFollowsAddPolicy : Prop :=
  ∀ (s : State) (i : Instr) (b : Byte), ((∃ src, i = .add src ∧ b = s.reg src) ∨ i = .adi b) →
    let sum := (s.regs.get .A).toNat + b.toNat
    ∃ t, exec i s = .next t ∧ (t.regs.get .A).toNat = sum % 256 ∧
      FlagsWritten (decide (255 < sum)) false (decide (sum = 0)) s t ∧
      SameRegsExcept [.A] s t ∧ SameMemory s t ∧ SameStreams s t ∧ Advanced s t

/-- R131, R134, R135: SUB and SUI store the absolute value of the exact difference in A; CY and S iff it is negative, Z iff
it is 0. -/
def Obligations.SubtractionFollowsSubtractPolicy : Prop :=
  ∀ (s : State) (i : Instr) (b : Byte), ((∃ src, i = .sub src ∧ b = s.reg src) ∨ i = .sui b) →
    let d : Int := (s.regs.get .A).toNat - b.toNat
    ∃ t, exec i s = .next t ∧ (t.regs.get .A).toNat = d.natAbs ∧
      FlagsWritten (decide (d < 0)) (decide (d < 0)) (decide (d = 0)) s t ∧
      SameRegsExcept [.A] s t ∧ SameMemory s t ∧ SameStreams s t ∧ Advanced s t

/-- R136, R137: CMP and CPI write the flags of the difference and never a register. -/
def Obligations.ComparisonWritesOnlyFlags : Prop :=
  ∀ (s : State) (i : Instr) (b : Byte), ((∃ src, i = .cmp src ∧ b = s.reg src) ∨ i = .cpi b) →
    let d : Int := (s.regs.get .A).toNat - b.toNat
    ∃ t, exec i s = .next t ∧ FlagsWritten (decide (d < 0)) (decide (d < 0)) (decide (d = 0)) s t ∧
      t.regs = s.regs ∧ SameMemory s t ∧ SameStreams s t ∧ Advanced s t

/-- R138: INR stores the sum mod 256; under `AddPolicy` CY iff the register was 0xFF, S and Z false; under `Unchanged` no
flag is written. -/
def Obligations.InrIncrements : Prop :=
  ∀ (r : RegName) (s : State), ∃ t v, exec (.inr r) s = .next t ∧
    v.toNat = ((s.reg r).toNat + 1) % 256 ∧ OperandWritten r v s t ∧
    (s.params.inrFlags = .addPolicy → FlagsWritten (decide (s.reg r = 0xFF)) false false s t) ∧
    (s.params.inrFlags = .unchanged → t.flags = s.flags) ∧ SameStreams s t ∧ Advanced s t

/-- R139: DCR stores the register less one, and at 0x00 the byte that `DCR_ZERO` gives; CY and S iff the register was 0x00,
Z iff it was 0x01. -/
def Obligations.DcrDecrements : Prop :=
  ∀ (r : RegName) (s : State), ∃ t v, exec (.dcr r) s = .next t ∧
    (s.reg r ≠ 0x00 → v.toNat = (s.reg r).toNat - 1) ∧
    (s.reg r = 0x00 → s.params.dcrZero = .abs → v = 0x01) ∧
    (s.reg r = 0x00 → s.params.dcrZero = .wrap → v = 0xFF) ∧
    OperandWritten r v s t ∧
    FlagsWritten (decide (s.reg r = 0x00)) (decide (s.reg r = 0x00)) (decide (s.reg r = 0x01)) s t ∧
    SameStreams s t ∧ Advanced s t

/-- R140, R230: INX adds one to the pair; at 0xFFFF it wraps, or reports E6 and changes nothing, by `INX_AT_FFFF`; the walk
goes on at the next instruction. -/
def Obligations.InxIncrementsPair : Prop :=
  ∀ (p : RegPair) (s : State), ∃ t, exec (.inx p) s = .next t ∧
    (s.regs.pair p ≠ 0xFFFF → (t.regs.pair p).toNat = (s.regs.pair p).toNat + 1 ∧ SameStreams s t) ∧
    (s.regs.pair p = 0xFFFF → s.params.inxAtFFFF = .wrap → t.regs.pair p = 0x0000 ∧ SameStreams s t) ∧
    (s.regs.pair p = 0xFFFF → s.params.inxAtFFFF = .reject → t.regs = s.regs ∧ Reported (.pairOverflow p) s t) ∧
    SameRegsExcept [p.high, p.low] s t ∧ SameMemory s t ∧ t.flags = s.flags ∧ Advanced s t

/-- R141, R230: DCX subtracts one from the pair; at 0x0000 it reports E5 and changes nothing; the walk goes on. -/
def Obligations.DcxDecrementsPair : Prop :=
  ∀ (p : RegPair) (s : State), ∃ t, exec (.dcx p) s = .next t ∧
    (s.regs.pair p ≠ 0x0000 → (t.regs.pair p).toNat = (s.regs.pair p).toNat - 1 ∧ SameStreams s t) ∧
    (s.regs.pair p = 0x0000 → t.regs = s.regs ∧ Reported (.pairUnderflow p) s t) ∧
    SameRegsExcept [p.high, p.low] s t ∧ SameMemory s t ∧ t.flags = s.flags ∧ Advanced s t

/-! ## Control transfer, output, halt -/

/-- R180 to R183, R229, R231: each conditional jump takes any token as its target, and is taken exactly on its flag; see
`JumpOutcome`. -/
def Obligations.ConditionalJumpsFollowTheirFlag : Prop :=
  ∀ (l : Label) (s : State),
    (∀ (p : Params) (own : Option Label),
      decode p ⟨some "JZ", [l], own⟩ = .ok ⟨.jz l, own⟩ ∧ decode p ⟨some "JNZ", [l], own⟩ = .ok ⟨.jnz l, own⟩ ∧
      decode p ⟨some "JC", [l], own⟩ = .ok ⟨.jc l, own⟩ ∧ decode p ⟨some "JNC", [l], own⟩ = .ok ⟨.jnc l, own⟩) ∧
    (∃ t, exec (.jz l) s = .next t ∧ JumpOutcome s.flags.z l s t) ∧
    (∃ t, exec (.jnz l) s = .next t ∧ JumpOutcome (!s.flags.z) l s t) ∧
    (∃ t, exec (.jc l) s = .next t ∧ JumpOutcome s.flags.cy l s t) ∧
    (∃ t, exec (.jnc l) s = .next t ∧ JumpOutcome (!s.flags.cy) l s t)

/-- R200: OUT emits one event with the value of A, tagged with its port (any tag where it has no operand), and changes no
register, flag or memory cell. -/
def Obligations.OutEmitsAccumulator : Prop :=
  ∀ (o : OutOperand) (s : State), ∃ t tag, exec (.out o) s = .next t ∧
    t.display = s.display ++ [⟨tag, s.regs.get .A⟩] ∧ (∀ b, o = .port b → tag = .port b) ∧
    SameMachineState s t ∧ t.errors = s.errors ∧ t.replies = s.replies ∧ Advanced s t

/-- R201: HLT takes no operand (E2 otherwise) and is a no-op: the walk goes on at the next instruction. -/
def Obligations.HltOnlyAdvances : Prop :=
  (∀ s : State, ∃ t, exec .hlt s = .next t ∧ SameMachineState s t ∧ SameStreams s t ∧ Advanced s t) ∧
  (∀ (p : Params) (args : List Token) (label : Option Label), decode p ⟨some "HLT", args, label⟩ =
    if args = [] then .ok ⟨.hlt, label⟩ else .error (.arity "HLT" 0 args.length))

/-! ## Rules over all instructions -/

/-- R30: no instruction outside the flag writers changes a flag. -/
def Obligations.OnlyFlagWritersWriteFlags : Prop :=
  ∀ (i : Instr) (s t : State), exec i s = .next t → writesFlags s.params i = false → t.flags = s.flags

/-- R31: AC is false at reset and no step, of an instruction or of the host, writes it. -/
def Obligations.AuxiliaryCarryStaysFalse : Prop :=
  (∀ p : Params, (State.resetWith p).flags.ac = false) ∧
  (∀ s t : State, step s = .next t → t.flags.ac = s.flags.ac)

/-- R32: S and AC are not read: changing them beforehand changes nothing else in what an instruction leaves, and an
instruction that writes S gives it the same new value. -/
def Obligations.SignAndAuxiliaryCarryAreNotRead : Prop :=
  ∀ (i : Instr) (s t : State) (sn ac : Bool), exec i s = .next t →
    ∃ u, exec i { s with flags := { s.flags with s := sn, ac := ac } } = .next u ∧
      { u with flags := { u.flags with s := t.flags.s, ac := t.flags.ac } } = t ∧
      (writesFlags s.params i = true → u.flags.s = t.flags.s) ∧
      (writesFlags s.params i = false → u.flags.s = sn) ∧ u.flags.ac = ac

/-- R53: memory is written only at the address that M or STAX names. -/
def Obligations.OnlyStoresWriteMemory : Prop :=
  ∀ (i : Instr) (s t : State) (a : Nat), exec i s = .next t →
    (∀ w, storeAddress i s = some w → a ≠ w.toNat) → Memory.read t.mem a = Memory.read s.mem a

/-- R281: only OUT drives the display sink. -/
def Obligations.OnlyOutDrivesTheDisplay : Prop :=
  ∀ (i : Instr) (s t : State), exec i s = .next t → isOut i = false → t.display = s.display

/-- R227, R238: an instruction other than a conditional jump returns no request: the cursor advances by one and the engine is
as it was. -/
def Obligations.OnlyJumpsRedirectTheCursor : Prop :=
  ∀ (i : Instr) (s t : State), exec i s = .next t → isJump i = false → Advanced s t

/-! ## The engine -/

/-- R228: in a walk, a step evaluates the entry at the cursor. -/
def Obligations.StepRunsTheEntryAtTheCursor : Prop :=
  ∀ (s : State) (k : Nat) (e : Entry), s.mode = .running → s.pc = .index k → s.log[k]? = some e → step s = exec e.instr s

/-- An instruction given as bits is decoded, and the next step runs exactly it (log entry 2: the model's numbering of bits). -/
def Obligations.StepRunsTheDecodedWord : Prop :=
  ∀ (s : State) (nbits w : Nat) (e : Entry), decode s.params (recordOfWord s.params nbits w) = .ok e →
    step (s.withFetchWord nbits w) = exec e.instr (s.withFetchWord nbits w)

/-- R229: at the end of the log the walk returns `Done` and the cursor goes back to `MOST_RECENT`; nothing else changes. -/
def Obligations.WalkEndsAtTheEndOfTheLog : Prop :=
  ∀ s : State, s.mode = .running → s.pc = .index s.log.length →
    ∃ t, step s = .next t ∧ SameMachineState s t ∧ SameEngine s t ∧ t.pc = .mostRecent ∧
      t.replies = s.replies ++ [.done] ∧ t.display = s.display ∧ t.errors = s.errors ∧ t.freeDraws = s.freeDraws

/-- R233: a step of a walk takes no request and leaves the log and the label index alone. -/
def Obligations.WalksAreAtomicForTheHost : Prop :=
  ∀ (s t : State) (k : Nat), s.mode = .running → s.pc = .index k → step s = .next t →
    t.log = s.log ∧ t.labels = s.labels ∧ t.input = s.input

/-- R280, R291: between walks and without a request, nothing happens. -/
def Obligations.CoreWaitsForTheHost : Prop :=
  ∀ s : State, TakesRequest s → s.input = [] → step s = .next s

/-- R229, R237, R291: between walks and while `RUNNING`, a line that decodes and whose label is new is appended, and a walk
starts at it; nothing is evaluated yet. -/
def Obligations.AcceptedLineStartsAWalkAtItself : Prop :=
  ∀ (s : State) (text : String) (rest : List HostRequest) (r : Record) (e : Entry),
    s.mode = .running → s.pc = .mostRecent → s.input = .line text :: rest → readLine text = .record r →
    decode s.params r = .ok e → (∀ l, e.label = some l → LabelIndex.find s.labels l = none) →
    ∃ t, step s = .next t ∧ t.log = s.log ++ [e] ∧ t.pc = .index s.log.length ∧ t.mode = .running ∧
      (∀ l, e.label = some l → LabelIndex.find t.labels l = some s.log.length) ∧
      SameMachineState s t ∧ t.params = s.params ∧ t.input = rest ∧
      t.replies = s.replies ++ [.appended s.log.length] ∧ t.display = s.display ∧ t.errors = s.errors

/-- R78, R260: a line whose record does not decode, and a line that decodes but carries a label already defined (E4, R264),
makes one report and changes nothing else: no walk starts. That `executeNext` is not called after a failed append is the
spec's choice D15 (R237, W5; log entry 17). -/
def Obligations.RejectedLineChangesNothing : Prop :=
  ∀ (s : State) (text : String) (rest : List HostRequest) (r : Record) (err : ErrorReport),
    TakesRequest s → s.input = .line text :: rest → readLine text = .record r →
    (decode s.params r = .error err ∨
      ∃ e l k, decode s.params r = .ok e ∧ e.label = some l ∧ LabelIndex.find s.labels l = some k ∧
        err = .duplicateLabel l k) →
    ∃ t, step s = .next t ∧ SameMachineState s t ∧ t.params = s.params ∧ t.log = s.log ∧ t.labels = s.labels ∧
      t.mode = s.mode ∧ t.pc = s.pc ∧ t.input = rest ∧ Reported err s t

/-- R264: E4: an append whose label is already defined fails, names the earlier index, and leaves the log unchanged. -/
def Obligations.DuplicateLabelIsRejected : Prop :=
  ∀ (e : Entry) (s : State) (l : Label) (k : Nat), e.label = some l → LabelIndex.find s.labels l = some k →
    (addInstruction e s).1 = .rejected k ∧
    (let t := (addInstruction e s).2
     SameMachineState s t ∧ SameEngine s t ∧ t.pc = s.pc ∧ Reported (.duplicateLabel l k) s t)

/-- R224: while suspended, an append resumes the engine iff it carries exactly the awaited label, and evaluates nothing; the
next `executeNext` then starts at the end of the log, or, where it does not resume, evaluates nothing. -/
def Obligations.OnlyTheAwaitedLabelResumes : Prop :=
  ∀ (e : Entry) (s : State) (w : Label), s.mode = .suspended w →
    (∀ l, e.label = some l → LabelIndex.find s.labels l = none) →
    let t := (addInstruction e s).2
    (e.label = some w → t.mode = .running ∧ (executeNext t).pc = .index s.log.length) ∧
    (e.label ≠ some w → t.mode = .suspended w ∧ SameMachineState s (executeNext t) ∧ (executeNext t).pc = s.pc) ∧
    t.log = s.log ++ [e] ∧ t.pc = s.pc ∧ SameMachineState s t ∧ t.display = s.display

/-- R239(c): while suspended no instruction is evaluated: a step that loads no snapshot leaves registers, flags, memory and
the display alone. -/
def Obligations.SuspendedEngineEvaluatesNothing : Prop :=
  ∀ (s t : State) (w : Label), s.mode = .suspended w → (∀ x rest, s.input ≠ .load x :: rest) → step s = .next t →
    SameMachineState s t ∧ t.display = s.display

/-- R234: while suspended `executeNext` evaluates nothing and returns `Suspended(w)`; it clears the mode iff the awaited label
is defined, which it never is under the invariant. -/
def Obligations.ExecuteNextWhileSuspendedOnlyChecks : Prop :=
  ∀ (s : State) (w : Label), s.mode = .suspended w →
    let t := executeNext s
    SameMachineState s t ∧ t.log = s.log ∧ t.labels = s.labels ∧ t.pc = s.pc ∧ t.display = s.display ∧
    t.errors = s.errors ∧ t.replies = s.replies ++ [.suspended w] ∧
    ((∃ k, LabelIndex.find s.labels w = some k) → t.mode = .running) ∧
    (LabelIndex.find s.labels w = none → t.mode = .suspended w) ∧ (Inv s → t.mode = .suspended w)

/-- R235: `executeNext` on an empty log returns `Idle` and changes nothing. -/
def Obligations.ExecuteNextOnEmptyLogIsIdle : Prop :=
  ∀ s : State, s.mode = .running → s.log = [] →
    let t := executeNext s
    SameMachineState s t ∧ SameEngine s t ∧ t.pc = s.pc ∧ t.replies = s.replies ++ [.idle] ∧ t.display = s.display ∧
    t.errors = s.errors

/-- R232: there is no loop guard: `X: JNZ X` evaluated with Z = 0 runs for ever. -/
def Obligations.SelfJumpRunsForever : Prop :=
  ∀ (s : State) (k : Nat) (x : Label), s.mode = .running → s.pc = .index k → s.log[k]? = some ⟨.jnz x, some x⟩ →
    LabelIndex.find s.labels x = some k → s.flags.z = false → ∀ n, Sys2Proof.core.run n s = .next s

/-! ## The host's requests -/

/-- R273, R275: `inspect` and `save` return what the state holds, exactly, and change none of it. Each mapping of a snapshot
names a key once; its registers are the seven stored ones, without M (DESIGN CHOICE, unsafe, log entry 18); its memory lists
the cells that are not 0x00 (DESIGN CHOICE of form, log entry 15), in states whose memory is in its canonical form,
`Inv.memory`. -/
def Obligations.InspectAndSaveAreReadOnly : Prop :=
  ∀ (s : State) (q : HostRequest) (rest : List HostRequest),
    TakesRequest s → s.input = q :: rest → isReadOnly q = true →
    ∃ t x, step s = .next t ∧ t = { s with input := rest, replies := s.replies ++ [x] } ∧
      (q = .inspect → x = .dumped ⟨s.regs, s.flags, s.mem⟩) ∧
      (q = .save → ∃ y, x = .saved y ∧
        (∀ r v, (r, v) ∈ y.registers ↔ v = s.regs.get r) ∧ (y.registers.map Prod.fst).Nodup ∧
        (Memory.wf s.mem →
          (∀ a v, (a, v) ∈ y.memory ↔ v ≠ 0x00 ∧ s.memRead a = v) ∧ (y.memory.map Prod.fst).Nodup))

/-- R275: a step that takes the request `load` sets what the snapshot names and answers nothing. That a snapshot names no M
is the model's choice (DESIGN CHOICE, unsafe, log entry 18). That the other registers
take their reset values and the other cells 0x00, whatever the session held before, is the model's reading (DEDUCED, unsafe,
log entry 13), and that flags, log, labels and mode stay is the spec's choice D25 (log entry 17). -/
def Obligations.LoadSetsExactlyWhatItNames : Prop :=
  ∀ (s : State) (x : Snapshot) (rest : List HostRequest), TakesRequest s → s.input = .load x :: rest →
    (x.registers.map Prod.fst).Nodup → (x.memory.map Prod.fst).Nodup →
    ∃ t, step s = .next t ∧ t.input = rest ∧
    (∀ r v, (r, v) ∈ x.registers → t.regs.get r = v) ∧
    (∀ r, r ∉ x.registers.map Prod.fst → t.regs.get r = s.params.resetRegs.get r) ∧
    (∀ a v, (a, v) ∈ x.memory → t.memRead a = v) ∧
    (∀ a, a ∉ x.memory.map Prod.fst → t.memRead a = 0x00) ∧
    t.flags = s.flags ∧ t.params = s.params ∧ t.log = s.log ∧ t.labels = s.labels ∧ t.mode = s.mode ∧ t.pc = s.pc ∧
    SameStreams s t

/-- R275, W8: the snapshot that a step taking `save` returns, given to a step taking `load` in any session, brings the same
registers and memory there (in states whose memory is in its canonical form, `Inv.memory`). W8 restores into a fresh CORE;
that the cells not listed read 0x00 in any other session too, whatever it held before, is the model's reading (DEDUCED,
unsafe, log entry 13). That the snapshot names no M is its choice (DESIGN CHOICE, unsafe, log entry 18). -/
def Obligations.LoadOfSaveRestoresRegistersAndMemory : Prop :=
  ∀ (s : State) (rest : List HostRequest), Memory.wf s.mem → TakesRequest s → s.input = .save :: rest →
    ∃ t y, step s = .next t ∧ t.replies = s.replies ++ [.saved y] ∧
      ∀ (u : State) (more : List HostRequest), TakesRequest u → u.input = .load y :: more →
        ∃ v, step u = .next v ∧ v.regs = s.regs ∧ v.mem = s.mem

/-- R236, R274, R282: a line that is `help` alone does nothing; `inspect` alone returns a dump; `quit`, as a line or as a
request, ends the run and changes nothing else. How a meta-command is recognised is the model's choice (DESIGN CHOICE, unsafe,
log entry 6), and that `quit` empties the pending requests is its form (DESIGN CHOICE, log entry 7). -/
def Obligations.MetaCommandsAndQuit : Prop :=
  ∀ (s : State) (text : String) (rest : List HostRequest), TakesRequest s →
    (s.input = .line text :: rest →
      (splitTokens text = ["help"] → step s = .next { s with input := rest }) ∧
      (splitTokens text = ["quit"] → step s = .next { s with input := [] }) ∧
      (splitTokens text = ["inspect"] →
        step s = .next { s with input := rest, replies := s.replies ++ [.dumped ⟨s.regs, s.flags, s.mem⟩] })) ∧
    (s.input = .quit :: rest → step s = .next { s with input := [] })

/-! ## Reset and invariants -/

/-- R290, R40: what reset leaves, for every `RESET_REGS`. That `RESET_REGS` is 0x00 for each register by default, the flags
false and the streams empty is the spec's own choice (D19; log entry 3). -/
def Obligations.ResetLeavesTheStatedValues : Prop :=
  State.reset = State.resetWith .default ∧ State.reset.regs = ⟨0x00, 0x00, 0x00, 0x00, 0x00, 0x00, 0x00⟩ ∧
  ∀ p : Params, let s := State.resetWith p
    s.params = p ∧ s.regs = p.resetRegs ∧ s.flags = ⟨false, false, false, false⟩ ∧ (∀ a : Word, s.memRead a = 0x00) ∧
    s.log = [] ∧ s.labels = [] ∧ s.mode = .running ∧ s.pc = .mostRecent ∧ s.display = [] ∧ s.errors = []

/-- The invariant holds right after reset, whatever the parameters. -/
def Obligations.ResetMeetsTheInvariant : Prop :=
  ∀ p : Params, Inv (State.resetWith p) ∧ FlagsCoherent (State.resetWith p).flags

/-- Every step keeps the invariant: canonical memory, `LABELS` as the log gives it with unique names, validated entries, the
cursor in 0..len(LOG), and no suspension on a defined label. -/
def Obligations.StepKeepsTheInvariant : Prop :=
  ∀ s t : State, Inv s → step s = .next t → Inv t

/-- Every step keeps the flags coherent: AC false, S only with CY, never CY with Z. -/
def Obligations.StepKeepsFlagsCoherent : Prop :=
  ∀ s t : State, FlagsCoherent s.flags → step s = .next t → FlagsCoherent t.flags

/-- R228, R267: under the invariant a step always answers a next state: no fault, E7 included, and no refusal. -/
def Obligations.InvariantStepsNeverStop : Prop :=
  ∀ s : State, Inv s → ∃ t, step s = .next t

/-- R222: under the invariant `LABELS(l) = k` iff entry k carries label l, so a label names at most one entry; and its index
never changes once set. -/
def Obligations.LabelsNameTheEntriesThatCarryThem : Prop :=
  ∀ (s : State) (l : Label) (k : Nat), Inv s →
    (LabelIndex.find s.labels l = some k ↔ ∃ e, s.log[k]? = some e ∧ e.label = some l) ∧
    (∀ t, LabelIndex.find s.labels l = some k → step s = .next t → LabelIndex.find t.labels l = some k)

/-- R39, R220, R222: the log and the output streams only grow, a defined label keeps its index, and the parameters stay. -/
def Obligations.LogAndStreamsOnlyGrow : Prop :=
  ∀ s t : State, step s = .next t → OnlyGrows s t
end

