-- ==== Sys2Proof/Laws/Decode.lean ====
section
/-! SUPPORT. The small facts of the decoder and of the encoder (spec/30_encoding.md). -/

namespace Sys2Proof

open Sys2Proof.Machine

/-! ## Operand tokens -/

@[simp] theorem readReg_token (r : RegName) : readReg r.token = some r := by
  rcases r with (_ | _ | _ | _ | _ | _ | _) | _ <;> decide

@[simp] theorem readPair_token (p : RegPair) : readPair p.token = some p := by
  cases p <;> decide

/-- The decoder's digit values invert the encoder's digits. -/
theorem hexDigitValue_hexDigit {n : Nat} (h : n < 16) : hexDigitValue (hexDigit n) = some n := by
  interval_cases n <;> decide

/-- No digit of the encoder is the suffix of a hex literal. -/
theorem hexDigit_ne_suffix {n : Nat} (h : n < 16) : hexDigit n ≠ 'H' := by
  interval_cases n <;> decide

/-! ## Literals -/

/-- A digit's value is the one its place in the list of digits gives. -/
theorem hexDigitValue_eq_some_iff {c : Char} {d : Nat} : hexDigitValue c = some d ↔ HexDigitOf c d := by
  constructor
  · intro h
    have hc : c = Char.ofNat c.toNat := (Char.ofNat_toNat c).symm
    unfold hexDigitValue at h
    rw [hc]
    generalize c.toNat = n at h
    simp only [Char.reduceToNat] at h
    split at h
    · next hn => obtain ⟨h1, h2⟩ := hn; cases h; interval_cases n <;> exact .inl rfl
    · split at h
      · next hn => obtain ⟨h1, h2⟩ := hn; cases h; interval_cases n <;> exact .inl rfl
      · split at h
        · next hn => obtain ⟨h1, h2⟩ := hn; cases h; interval_cases n <;> exact .inr rfl
        · cases h
  · rintro (h | h) <;>
    · have hd : d < 16 := (List.getElem?_eq_some_iff.mp h).1
      interval_cases d <;> cases h <;> decide

/-- The value of a run of digits after `acc`. -/
theorem hexDigitsValue_eq_some_iff {cs : List Char} {acc v : Nat} : hexDigitsValue cs acc = some v ↔
    ∃ ds, List.Forall₂ HexDigitOf cs ds ∧ v = acc * 16 ^ cs.length + Nat.ofDigits 16 ds.reverse := by
  induction cs generalizing acc with
  | nil => simp [hexDigitsValue, eq_comm]
  | cons c cs ih =>
    have split_digit (d : Nat) (ds : List Nat) (hl : cs.length = ds.length) :
        (acc * 16 + d) * 16 ^ cs.length + Nat.ofDigits 16 ds.reverse =
          acc * 16 ^ (c :: cs).length + Nat.ofDigits 16 (d :: ds).reverse := by
      simp [Nat.ofDigits_append, hl, pow_succ]; ring
    constructor
    · intro h
      simp only [hexDigitsValue] at h
      split at h
      · next d hd =>
        obtain ⟨ds, hds, rfl⟩ := ih.mp h
        exact ⟨d :: ds, .cons (hexDigitValue_eq_some_iff.mp hd) hds, split_digit d ds hds.length_eq⟩
      · cases h
    · rintro ⟨_, h, rfl⟩
      cases h with
      | cons hd hds =>
        simp only [hexDigitsValue, hexDigitValue_eq_some_iff.mpr hd]
        exact ih.mpr ⟨_, hds, (split_digit _ _ hds.length_eq).symm⟩

/-- No hexadecimal digit is the suffix. -/
theorem not_hexDigitOf_suffix (d : Nat) : ¬ HexDigitOf 'H' d := by
  rw [← hexDigitValue_eq_some_iff]
  have : hexDigitValue 'H' = none := by decide
  simp [this]

/-- So no run of hexadecimal digits ends in the suffix. -/
theorem not_hexRun_suffix (cs : List Char) (v : Nat) : ¬ HexRun (cs ++ ['H']) v := by
  rintro ⟨_, ds, h, hv⟩
  clear hv
  induction cs generalizing ds with
  | nil => cases h with | cons hd _ => exact not_hexDigitOf_suffix _ hd
  | cons c cs ih => cases h with | cons _ hds => exact ih (by simp) _ hds

/-- R79, R84: what a token reads as in hexadecimal is the value of the literal it is. -/
theorem readHex_eq_some_iff {t : Token} {v : Nat} : readHex t = some v ↔ HexLiteral t v := by
  have digits : readHex t = some v ↔ HexRun (hexDigitsOf t) v := by
    have run (cs : List Char) : HexRun cs v ↔ cs ≠ [] ∧ hexDigitsValue cs 0 = some v := by
      simp [HexRun, hexDigitsValue_eq_some_iff]
    rw [run, readHex]
    cases hexDigitsOf t <;> simp
  rw [digits, hexDigitsOf]
  split
  · next ds hs =>
    have ht : t.toList = ds.reverse ++ ['H'] := by simpa using congrArg List.reverse hs
    constructor
    · exact fun h => ⟨_, h, .inr ht⟩
    · rintro ⟨cs, h, hcs | hcs⟩
      · rw [← hcs, ht] at h
        exact absurd h (not_hexRun_suffix _ v)
      · rwa [← List.append_cancel_right (ht.symm.trans hcs)] at h
  · next hs =>
    constructor
    · exact fun h => ⟨_, h, .inl rfl⟩
    · rintro ⟨cs, h, hcs | hcs⟩
      · rwa [hcs]
      · exact absurd (by simp [hcs]) (hs cs.reverse)

/-! ## The table -/

/-- R73: the row of an instruction. -/
def rowOf (p : Params) : Instr → Row
  | .mov _ _ => ⟨"MOV", [⟨"dst", .reg⟩, ⟨"src", .reg⟩], .mov⟩
  | .mvi _ _ => ⟨"MVI", [⟨"dst", .reg⟩, ⟨"data", .byte⟩], .mvi⟩
  | .ldax _ => ⟨"LDAX", [⟨"p", .pair⟩], .ldax⟩
  | .stax _ => ⟨"STAX", [⟨"p", .pair⟩], .stax⟩
  | .lxi _ _ => ⟨"LXI", [⟨"p", .pair⟩, ⟨"data", .word⟩], .lxi⟩
  | .add _ => ⟨"ADD", [⟨"src", .reg⟩], .add⟩
  | .adi _ => ⟨"ADI", [⟨"data", .byte⟩], .adi⟩
  | .sub _ => ⟨"SUB", [⟨"src", .reg⟩], .sub⟩
  | .sui _ => ⟨"SUI", [⟨"data", .byte⟩], .sui⟩
  | .cmp _ => ⟨"CMP", [⟨"src", .reg⟩], .cmp⟩
  | .cpi _ => ⟨"CPI", [⟨"data", .byte⟩], .cpi⟩
  | .inr _ => ⟨"INR", [⟨"r", .reg⟩], .inr⟩
  | .dcr _ => ⟨"DCR", [⟨"r", .reg⟩], .dcr⟩
  | .inx _ => ⟨"INX", [⟨"p", .pair⟩], .inx⟩
  | .dcx _ => ⟨"DCX", [⟨"p", .pair⟩], .dcx⟩
  | .jz _ => ⟨"JZ", [⟨"target", .label⟩], .jz⟩
  | .jnz _ => ⟨"JNZ", [⟨"target", .label⟩], .jnz⟩
  | .jc _ => ⟨"JC", [⟨"target", .label⟩], .jc⟩
  | .jnc _ => ⟨"JNC", [⟨"target", .label⟩], .jnc⟩
  | .out _ => ⟨"OUT", outParams p.outForm, .out⟩
  | .hlt => ⟨"HLT", [], .hlt⟩

/-- R75: an instruction's mnemonic selects its row. -/
@[simp] theorem lookupRow_mnemonic (p : Params) (i : Instr) : lookupRow p i.mnemonic = some (rowOf p i) := by
  cases i <;> simp [lookupRow, opcodeTable, Instr.mnemonic, rowOf, List.find?]

/-- R73: the table has 21 rows, no two with one mnemonic. -/
theorem opcodeTable_mnemonics_nodup (p : Params) : ((opcodeTable p).map (fun r => r.mnemonic)).Nodup := by
  simp [opcodeTable]

/-- A row that is looked up is a row of the table with that mnemonic. -/
theorem lookupRow_some {p : Params} {op : Token} {row : Row} (h : lookupRow p op = some row) :
    row ∈ opcodeTable p ∧ row.mnemonic = op :=
  ⟨List.mem_of_find?_eq_some h, by simpa using List.find?_some h⟩

/-! ## Checks -/

/-- A literal check fails on a token exactly where a byte or a word does not read. -/
theorem literalCheck_iff {q : Param} {t : Token} :
    (q.type.isLiteral && (readOperand q.type t).isNone) = true ↔
      (q.type = .byte ∧ readByte t = none ∨ q.type = .word ∧ readWord t = none) := by
  cases q.type <;> simp [ParamType.isLiteral, readOperand]

/-- R268, R270: what E8 answers, none or the first token at a BYTE or WORD position that does not read. -/
theorem firstBadLiteral_spec (row : Row) (args : List Token) :
    (firstBadLiteral row.params args = none ∧ ∀ k t, ¬ BadLiteralAt row args k t) ∨
    (∃ k t, firstBadLiteral row.params args = some t ∧ BadLiteralAt row args k t ∧
      ∀ j u, j < k → ¬ BadLiteralAt row args j u) := by
  obtain ⟨m, qs, o⟩ := row
  induction qs generalizing args with
  | nil => exact .inl ⟨by cases args <;> rfl, by simp [BadLiteralAt]⟩
  | cons q qs ih =>
    cases args with
    | nil => exact .inl ⟨rfl, by simp [BadLiteralAt]⟩
    | cons t ts =>
      have first (u : Token) : BadLiteralAt ⟨m, q :: qs, o⟩ (t :: ts) 0 u ↔
          t = u ∧ (q.type.isLiteral && (readOperand q.type u).isNone) = true := by
        rw [literalCheck_iff]; simp [BadLiteralAt]
      have later (k : Nat) (u : Token) : BadLiteralAt ⟨m, q :: qs, o⟩ (t :: ts) (k + 1) u ↔
          BadLiteralAt ⟨m, qs, o⟩ ts k u := by
        simp [BadLiteralAt]
      by_cases hc : (q.type.isLiteral && (readOperand q.type t).isNone) = true
      · exact .inr ⟨0, t, by simp only [firstBadLiteral, if_pos hc], (first t).mpr ⟨rfl, hc⟩, by simp⟩
      · have none_first (u : Token) : ¬ BadLiteralAt ⟨m, q :: qs, o⟩ (t :: ts) 0 u := by
          rw [first]; rintro ⟨rfl, h⟩; exact hc h
        have hf : firstBadLiteral (q :: qs) (t :: ts) = firstBadLiteral qs ts := by
          simp only [firstBadLiteral, if_neg hc]
        rcases ih ts with ⟨hn, ha⟩ | ⟨k, u, hs, hb, ha⟩
        · refine .inl ⟨hf.trans hn, fun k u => ?_⟩
          cases k with
          | zero => exact none_first u
          | succ k => rw [later]; exact ha k u
        · refine .inr ⟨k + 1, u, hf.trans hs, (later k u).mpr hb, fun j w hj => ?_⟩
          cases j with
          | zero => exact none_first w
          | succ j => rw [later]; exact ha j w (by omega)

/-- An argument list that passes its checks has the declared length, and each token reads as an operand. -/
theorem operands_of_checkArgs {row : Row} {args : List Token} (h : checkArgs row args = none) :
    args.length = row.params.length ∧
      ∀ (i : Nat) (q : Param) (t : Token), row.params[i]? = some q → args[i]? = some t → (readOperand q.type t).isSome := by
  have noLiteral : ∀ (qs : List Param) (ts : List Token), firstBadLiteral qs ts = none →
      ∀ (i : Nat) (q : Param) (t : Token), qs[i]? = some q → ts[i]? = some t → q.type.isLiteral = true → (readOperand q.type t).isSome := by
    intro qs
    induction qs with
    | nil => intro ts _ i q t hq; simp at hq
    | cons q qs ih =>
      intro ts h i q' t' hq ht hlit
      cases ts with
      | nil => simp at ht
      | cons t ts =>
        simp only [firstBadLiteral] at h
        split at h
        · cases h
        · next hc =>
          cases i with
          | zero =>
            simp at hq ht; subst hq ht
            rw [Option.isSome_iff_ne_none]
            intro hn
            exact hc (by rw [hlit, hn]; rfl)
          | succ i => exact ih ts h i q' t' (by simpa using hq) (by simpa using ht) hlit
  have noConstraint : ∀ (qs : List Param) (ts : List Token) (n : Nat), firstBadConstraint qs ts n = none →
      ∀ (i : Nat) (q : Param) (t : Token), qs[i]? = some q → ts[i]? = some t → q.type.isLiteral = false → (readOperand q.type t).isSome := by
    intro qs
    induction qs with
    | nil => intro ts n _ i q t hq; simp at hq
    | cons q qs ih =>
      intro ts n h i q' t' hq ht hlit
      cases ts with
      | nil => simp at ht
      | cons t ts =>
        simp only [firstBadConstraint] at h
        split at h
        · cases h
        · next hc =>
          cases i with
          | zero =>
            simp at hq ht; subst hq ht
            rw [Option.isSome_iff_ne_none]
            intro hn
            exact hc (by rw [hlit, hn]; rfl)
          | succ i => exact ih ts (n + 1) h i q' t' (by simpa using hq) (by simpa using ht) hlit
  unfold checkArgs at h
  split at h
  · cases h
  · next hl =>
    split at h
    · next hlen =>
      split at h
      · cases h
      · next hc =>
        refine ⟨hlen, fun i q t hq ht => ?_⟩
        cases hq' : q.type.isLiteral with
        | true => exact noLiteral _ _ hl i q t hq ht hq'
        | false => exact noConstraint _ _ 0 hc i q t hq ht hq'
    · cases h

/-- Tokens that all read as operands give one operand each. -/
theorem readOperands_length {qs : List Param} {ts : List Token} (hlen : ts.length = qs.length)
    (h : ∀ (i : Nat) (q : Param) (t : Token), qs[i]? = some q → ts[i]? = some t → (readOperand q.type t).isSome) :
    (readOperands qs ts).length = qs.length := by
  induction qs generalizing ts with
  | nil => cases ts <;> rfl
  | cons q qs ih =>
    cases ts with
    | nil => simp at hlen
    | cons t ts =>
      obtain ⟨x, hx⟩ := Option.isSome_iff_exists.mp (h 0 q t rfl rfl)
      have := ih (ts := ts) (by simpa using hlen) fun i q' t' hq ht => h (i + 1) q' t' (by simpa using hq) (by simpa using ht)
      simp [readOperands, hx, this]

/-- The last arm of `decode` is never taken: a row of the table whose checks pass always assembles (R81: "every opcode in the
table must have a corresponding handler"). -/
theorem assemble_isSome_of_checkArgs {p : Params} {row : Row} (hrow : row ∈ opcodeTable p) {args : List Token}
    (h : checkArgs row args = none) : (assemble row.opcode (readOperands row.params args)).isSome := by
  obtain ⟨hlen, hops⟩ := operands_of_checkArgs h
  have two : ∀ (a b : Param), row.params = [a, b] → ∃ x y, readOperands row.params args = [x, y] ∧
      (∃ t, readOperand a.type t = some x) ∧ (∃ t, readOperand b.type t = some y) := by
    intro a b hp
    rw [hp] at hlen hops ⊢
    match args, hlen with
    | [t, u], _ =>
      obtain ⟨x, hx⟩ := Option.isSome_iff_exists.mp (hops 0 a t rfl rfl)
      obtain ⟨y, hy⟩ := Option.isSome_iff_exists.mp (hops 1 b u rfl rfl)
      exact ⟨x, y, by simp [readOperands, hx, hy], ⟨t, hx⟩, ⟨u, hy⟩⟩
  have one : ∀ (a : Param), row.params = [a] → ∃ x, readOperands row.params args = [x] ∧
      (∃ t, readOperand a.type t = some x) := by
    intro a hp
    rw [hp] at hlen hops ⊢
    match args, hlen with
    | [t], _ =>
      obtain ⟨x, hx⟩ := Option.isSome_iff_exists.mp (hops 0 a t rfl rfl)
      exact ⟨x, by simp [readOperands, hx], ⟨t, hx⟩⟩
  have zero : row.params = [] → readOperands row.params args = [] := fun hp => by rw [hp]; rfl
  simp only [opcodeTable, List.cons_append, List.nil_append, List.mem_cons, List.not_mem_nil, or_false] at hrow
  rcases hrow with rfl | rfl | rfl | rfl | rfl | rfl | rfl | rfl | rfl | rfl | rfl | rfl | rfl | rfl | rfl | rfl | rfl |
    rfl | rfl | rfl | rfl
  case inl | inr.inl | inr.inr.inr.inr.inl =>
    obtain ⟨x, y, hxy, ⟨t, hx⟩, ⟨u, hy⟩⟩ := two _ _ rfl
    obtain ⟨_, _, rfl⟩ := Option.map_eq_some_iff.mp hx
    obtain ⟨_, _, rfl⟩ := Option.map_eq_some_iff.mp hy
    simp [hxy, assemble]
  all_goals first
    | (obtain ⟨x, hx1, ⟨t, hx⟩⟩ := one _ rfl
       obtain ⟨_, _, rfl⟩ := Option.map_eq_some_iff.mp hx
       simp [hx1, assemble])
    | (obtain ⟨x, hx1, ⟨t, hx⟩⟩ := one _ rfl
       obtain rfl := Option.some.inj hx
       simp [hx1, assemble])
    | (simp [zero rfl, assemble])
    | skip
  cases hp : p.outForm with
  | port =>
    obtain ⟨x, hx1, ⟨t, hx⟩⟩ := one ⟨"port", .byte⟩ (by simp [outParams, hp])
    obtain ⟨_, _, rfl⟩ := Option.map_eq_some_iff.mp hx
    simp only [hp] at hx1
    simp [hx1, assemble]
  | nullary =>
    have hx1 := zero (by simp [outParams, hp])
    simp only [hp] at hx1
    simp [hx1, assemble]

/-- What it takes for a record to decode: its row, its checks passed, and the instruction its operands make. -/
theorem decode_ok {p : Params} {r : Record} {e : Entry} (h : decode p r = .ok e) :
    ∃ op row, r.opcode = some op ∧ lookupRow p op = some row ∧ checkArgs row r.args = none ∧
      assemble row.opcode (readOperands row.params r.args) = some e.instr ∧ e.label = r.label := by
  unfold decode at h
  cases hop : r.opcode with
  | none => simp [hop] at h
  | some op =>
    cases hrow : lookupRow p op with
    | none => simp [hop, hrow] at h
    | some row =>
      cases hc : checkArgs row r.args with
      | some err => simp [hop, hrow, hc] at h
      | none =>
        cases ha : assemble row.opcode (readOperands row.params r.args) with
        | none => simp [hop, hrow, hc, ha] at h
        | some i =>
          simp [hop, hrow, hc, ha] at h
          exact ⟨op, row, rfl, hrow, hc, by rw [← h]; exact ha, by rw [← h]⟩

/-- A record whose row, checks and operands are known decodes to the instruction they make. -/
theorem decode_of_assemble {p : Params} {op : Token} {args : List Token} {label : Option Label} {row : Row} {i : Instr}
    (hrow : lookupRow p op = some row) (hc : checkArgs row args = none)
    (ha : assemble row.opcode (readOperands row.params args) = some i) :
    decode p ⟨some op, args, label⟩ = .ok ⟨i, label⟩ := by
  simp [decode, hrow, hc, ha]

/-- A record whose row is known and whose checks fail decodes to the error they name. -/
theorem decode_of_checkArgs {p : Params} {op : Token} {args : List Token} {label : Option Label} {row : Row}
    {err : ErrorReport} (hrow : lookupRow p op = some row) (hc : checkArgs row args = some err) :
    decode p ⟨some op, args, label⟩ = .error err := by
  simp [decode, hrow, hc]

/-! ## The tokenizer -/

/-- White space before a token list is skipped. -/
theorem splitChars_space {c : Char} (h : c.isWhitespace = true) (cs : List Char) : splitChars (c :: cs) [] = splitChars cs [] := by
  simp [splitChars, h]

/-- A run of characters that are not white space goes into the token being read. -/
theorem splitChars_run {ds : List Char} (h : ∀ d ∈ ds, d.isWhitespace = false) (cs acc : List Char) :
    splitChars (ds ++ cs) acc = splitChars cs (ds.reverse ++ acc) := by
  induction ds generalizing acc with
  | nil => rfl
  | cons d ds ih =>
    have one : splitChars (d :: (ds ++ cs)) acc = splitChars (ds ++ cs) (d :: acc) := by
      cases acc <;> simp [splitChars, h d (by simp)]
    rw [List.cons_append, one, ih (fun x hx => h x (by simp [hx])) (d :: acc)]
    simp

end Sys2Proof
end

