-- ==== Sys2Proof/Laws/State.lean ====
section
/-! SUPPORT. One lemma per field of State per update, true by unfolding the update once. -/

namespace Sys2Proof.Machine

variable (s : State)

/-! ## `State.memWrite` -/

@[simp] theorem State.memWrite_params (a : Word) (v : Byte) : (s.memWrite a v).params = s.params := rfl
@[simp] theorem State.memWrite_regs (a : Word) (v : Byte) : (s.memWrite a v).regs = s.regs := rfl
@[simp] theorem State.memWrite_flags (a : Word) (v : Byte) : (s.memWrite a v).flags = s.flags := rfl
@[simp] theorem State.memWrite_mem (a : Word) (v : Byte) : (s.memWrite a v).mem = Memory.write s.mem a.toNat v := rfl
@[simp] theorem State.memWrite_log (a : Word) (v : Byte) : (s.memWrite a v).log = s.log := rfl
@[simp] theorem State.memWrite_labels (a : Word) (v : Byte) : (s.memWrite a v).labels = s.labels := rfl
@[simp] theorem State.memWrite_mode (a : Word) (v : Byte) : (s.memWrite a v).mode = s.mode := rfl
@[simp] theorem State.memWrite_pc (a : Word) (v : Byte) : (s.memWrite a v).pc = s.pc := rfl
@[simp] theorem State.memWrite_display (a : Word) (v : Byte) : (s.memWrite a v).display = s.display := rfl
@[simp] theorem State.memWrite_errors (a : Word) (v : Byte) : (s.memWrite a v).errors = s.errors := rfl
@[simp] theorem State.memWrite_input (a : Word) (v : Byte) : (s.memWrite a v).input = s.input := rfl
@[simp] theorem State.memWrite_replies (a : Word) (v : Byte) : (s.memWrite a v).replies = s.replies := rfl
@[simp] theorem State.memWrite_freeDraws (a : Word) (v : Byte) : (s.memWrite a v).freeDraws = s.freeDraws := rfl

/-! ## `State.emit` -/

@[simp] theorem State.emit_params (e : DisplayEvent) : (s.emit e).params = s.params := rfl
@[simp] theorem State.emit_regs (e : DisplayEvent) : (s.emit e).regs = s.regs := rfl
@[simp] theorem State.emit_flags (e : DisplayEvent) : (s.emit e).flags = s.flags := rfl
@[simp] theorem State.emit_mem (e : DisplayEvent) : (s.emit e).mem = s.mem := rfl
@[simp] theorem State.emit_log (e : DisplayEvent) : (s.emit e).log = s.log := rfl
@[simp] theorem State.emit_labels (e : DisplayEvent) : (s.emit e).labels = s.labels := rfl
@[simp] theorem State.emit_mode (e : DisplayEvent) : (s.emit e).mode = s.mode := rfl
@[simp] theorem State.emit_pc (e : DisplayEvent) : (s.emit e).pc = s.pc := rfl
@[simp] theorem State.emit_display (e : DisplayEvent) : (s.emit e).display = s.display ++ [e] := rfl
@[simp] theorem State.emit_errors (e : DisplayEvent) : (s.emit e).errors = s.errors := rfl
@[simp] theorem State.emit_input (e : DisplayEvent) : (s.emit e).input = s.input := rfl
@[simp] theorem State.emit_replies (e : DisplayEvent) : (s.emit e).replies = s.replies := rfl
@[simp] theorem State.emit_freeDraws (e : DisplayEvent) : (s.emit e).freeDraws = s.freeDraws := rfl

/-! ## `State.reply` -/

@[simp] theorem State.reply_params (r : Reply) : (s.reply r).params = s.params := rfl
@[simp] theorem State.reply_regs (r : Reply) : (s.reply r).regs = s.regs := rfl
@[simp] theorem State.reply_flags (r : Reply) : (s.reply r).flags = s.flags := rfl
@[simp] theorem State.reply_mem (r : Reply) : (s.reply r).mem = s.mem := rfl
@[simp] theorem State.reply_log (r : Reply) : (s.reply r).log = s.log := rfl
@[simp] theorem State.reply_labels (r : Reply) : (s.reply r).labels = s.labels := rfl
@[simp] theorem State.reply_mode (r : Reply) : (s.reply r).mode = s.mode := rfl
@[simp] theorem State.reply_pc (r : Reply) : (s.reply r).pc = s.pc := rfl
@[simp] theorem State.reply_display (r : Reply) : (s.reply r).display = s.display := rfl
@[simp] theorem State.reply_errors (r : Reply) : (s.reply r).errors = s.errors := rfl
@[simp] theorem State.reply_input (r : Reply) : (s.reply r).input = s.input := rfl
@[simp] theorem State.reply_replies (r : Reply) : (s.reply r).replies = s.replies ++ [r] := rfl
@[simp] theorem State.reply_freeDraws (r : Reply) : (s.reply r).freeDraws = s.freeDraws := rfl

/-! ## `State.report` -/

@[simp] theorem State.report_params (e : ErrorReport) : (s.report e).params = s.params := rfl
@[simp] theorem State.report_regs (e : ErrorReport) : (s.report e).regs = s.regs := rfl
@[simp] theorem State.report_flags (e : ErrorReport) : (s.report e).flags = s.flags := rfl
@[simp] theorem State.report_mem (e : ErrorReport) : (s.report e).mem = s.mem := rfl
@[simp] theorem State.report_log (e : ErrorReport) : (s.report e).log = s.log := rfl
@[simp] theorem State.report_labels (e : ErrorReport) : (s.report e).labels = s.labels := rfl
@[simp] theorem State.report_mode (e : ErrorReport) : (s.report e).mode = s.mode := rfl
@[simp] theorem State.report_pc (e : ErrorReport) : (s.report e).pc = s.pc := rfl
@[simp] theorem State.report_display (e : ErrorReport) : (s.report e).display = s.display := rfl
@[simp] theorem State.report_errors (e : ErrorReport) : (s.report e).errors = s.errors ++ [e] := rfl
@[simp] theorem State.report_input (e : ErrorReport) : (s.report e).input = s.input := rfl
@[simp] theorem State.report_replies (e : ErrorReport) : (s.report e).replies = s.replies ++ [.report e] := rfl
@[simp] theorem State.report_freeDraws (e : ErrorReport) : (s.report e).freeDraws = s.freeDraws := rfl

/-! ## `State.suspend` -/

@[simp] theorem State.suspend_params (l : Label) : (s.suspend l).params = s.params := rfl
@[simp] theorem State.suspend_regs (l : Label) : (s.suspend l).regs = s.regs := rfl
@[simp] theorem State.suspend_flags (l : Label) : (s.suspend l).flags = s.flags := rfl
@[simp] theorem State.suspend_mem (l : Label) : (s.suspend l).mem = s.mem := rfl
@[simp] theorem State.suspend_log (l : Label) : (s.suspend l).log = s.log := rfl
@[simp] theorem State.suspend_labels (l : Label) : (s.suspend l).labels = s.labels := rfl
@[simp] theorem State.suspend_mode (l : Label) : (s.suspend l).mode = .suspended l := rfl
@[simp] theorem State.suspend_pc (l : Label) : (s.suspend l).pc = .mostRecent := rfl
@[simp] theorem State.suspend_display (l : Label) : (s.suspend l).display = s.display := rfl
@[simp] theorem State.suspend_errors (l : Label) : (s.suspend l).errors = s.errors := rfl
@[simp] theorem State.suspend_input (l : Label) : (s.suspend l).input = s.input := rfl
@[simp] theorem State.suspend_replies (l : Label) : (s.suspend l).replies = s.replies ++ [.suspended l] := rfl
@[simp] theorem State.suspend_freeDraws (l : Label) : (s.suspend l).freeDraws = s.freeDraws := rfl

/-! ## `State.setPair` -/

@[simp] theorem State.setPair_params (p : RegPair) (w : Word) : (s.setPair p w).params = s.params := rfl
@[simp] theorem State.setPair_regs (p : RegPair) (w : Word) : (s.setPair p w).regs = s.regs.setPair p w := rfl
@[simp] theorem State.setPair_flags (p : RegPair) (w : Word) : (s.setPair p w).flags = s.flags := rfl
@[simp] theorem State.setPair_mem (p : RegPair) (w : Word) : (s.setPair p w).mem = s.mem := rfl
@[simp] theorem State.setPair_log (p : RegPair) (w : Word) : (s.setPair p w).log = s.log := rfl
@[simp] theorem State.setPair_labels (p : RegPair) (w : Word) : (s.setPair p w).labels = s.labels := rfl
@[simp] theorem State.setPair_mode (p : RegPair) (w : Word) : (s.setPair p w).mode = s.mode := rfl
@[simp] theorem State.setPair_pc (p : RegPair) (w : Word) : (s.setPair p w).pc = s.pc := rfl
@[simp] theorem State.setPair_display (p : RegPair) (w : Word) : (s.setPair p w).display = s.display := rfl
@[simp] theorem State.setPair_errors (p : RegPair) (w : Word) : (s.setPair p w).errors = s.errors := rfl
@[simp] theorem State.setPair_input (p : RegPair) (w : Word) : (s.setPair p w).input = s.input := rfl
@[simp] theorem State.setPair_replies (p : RegPair) (w : Word) : (s.setPair p w).replies = s.replies := rfl
@[simp] theorem State.setPair_freeDraws (p : RegPair) (w : Word) : (s.setPair p w).freeDraws = s.freeDraws := rfl

/-! ## `State.setAcc` -/

@[simp] theorem State.setAcc_params (v : Byte) : (s.setAcc v).params = s.params := rfl
@[simp] theorem State.setAcc_regs (v : Byte) : (s.setAcc v).regs = s.regs.set .A v := rfl
@[simp] theorem State.setAcc_flags (v : Byte) : (s.setAcc v).flags = s.flags := rfl
@[simp] theorem State.setAcc_mem (v : Byte) : (s.setAcc v).mem = s.mem := rfl
@[simp] theorem State.setAcc_log (v : Byte) : (s.setAcc v).log = s.log := rfl
@[simp] theorem State.setAcc_labels (v : Byte) : (s.setAcc v).labels = s.labels := rfl
@[simp] theorem State.setAcc_mode (v : Byte) : (s.setAcc v).mode = s.mode := rfl
@[simp] theorem State.setAcc_pc (v : Byte) : (s.setAcc v).pc = s.pc := rfl
@[simp] theorem State.setAcc_display (v : Byte) : (s.setAcc v).display = s.display := rfl
@[simp] theorem State.setAcc_errors (v : Byte) : (s.setAcc v).errors = s.errors := rfl
@[simp] theorem State.setAcc_input (v : Byte) : (s.setAcc v).input = s.input := rfl
@[simp] theorem State.setAcc_replies (v : Byte) : (s.setAcc v).replies = s.replies := rfl
@[simp] theorem State.setAcc_freeDraws (v : Byte) : (s.setAcc v).freeDraws = s.freeDraws := rfl

/-! ## `State.setFlags` -/

@[simp] theorem State.setFlags_params (y : Synth) : (s.setFlags y).params = s.params := rfl
@[simp] theorem State.setFlags_regs (y : Synth) : (s.setFlags y).regs = s.regs := rfl
@[simp] theorem State.setFlags_flags (y : Synth) : (s.setFlags y).flags = s.flags.update (some y.cy) (some y.s) (some y.z) := rfl
@[simp] theorem State.setFlags_mem (y : Synth) : (s.setFlags y).mem = s.mem := rfl
@[simp] theorem State.setFlags_log (y : Synth) : (s.setFlags y).log = s.log := rfl
@[simp] theorem State.setFlags_labels (y : Synth) : (s.setFlags y).labels = s.labels := rfl
@[simp] theorem State.setFlags_mode (y : Synth) : (s.setFlags y).mode = s.mode := rfl
@[simp] theorem State.setFlags_pc (y : Synth) : (s.setFlags y).pc = s.pc := rfl
@[simp] theorem State.setFlags_display (y : Synth) : (s.setFlags y).display = s.display := rfl
@[simp] theorem State.setFlags_errors (y : Synth) : (s.setFlags y).errors = s.errors := rfl
@[simp] theorem State.setFlags_input (y : Synth) : (s.setFlags y).input = s.input := rfl
@[simp] theorem State.setFlags_replies (y : Synth) : (s.setFlags y).replies = s.replies := rfl
@[simp] theorem State.setFlags_freeDraws (y : Synth) : (s.setFlags y).freeDraws = s.freeDraws := rfl

/-! ## `State.accumulate` -/

@[simp] theorem State.accumulate_params (y : Synth) : (s.accumulate y).params = s.params := rfl
@[simp] theorem State.accumulate_regs (y : Synth) : (s.accumulate y).regs = s.regs.set .A y.res := rfl
@[simp] theorem State.accumulate_flags (y : Synth) : (s.accumulate y).flags = s.flags.update (some y.cy) (some y.s) (some y.z) := rfl
@[simp] theorem State.accumulate_mem (y : Synth) : (s.accumulate y).mem = s.mem := rfl
@[simp] theorem State.accumulate_log (y : Synth) : (s.accumulate y).log = s.log := rfl
@[simp] theorem State.accumulate_labels (y : Synth) : (s.accumulate y).labels = s.labels := rfl
@[simp] theorem State.accumulate_mode (y : Synth) : (s.accumulate y).mode = s.mode := rfl
@[simp] theorem State.accumulate_pc (y : Synth) : (s.accumulate y).pc = s.pc := rfl
@[simp] theorem State.accumulate_display (y : Synth) : (s.accumulate y).display = s.display := rfl
@[simp] theorem State.accumulate_errors (y : Synth) : (s.accumulate y).errors = s.errors := rfl
@[simp] theorem State.accumulate_input (y : Synth) : (s.accumulate y).input = s.input := rfl
@[simp] theorem State.accumulate_replies (y : Synth) : (s.accumulate y).replies = s.replies := rfl
@[simp] theorem State.accumulate_freeDraws (y : Synth) : (s.accumulate y).freeDraws = s.freeDraws := rfl

/-! ## `State.setReg`: a general register, or memory through M -/

@[simp] theorem State.setReg_gp_regs (x : Reg) (v : Byte) : (s.setReg (.gp x) v).regs = s.regs.set x v := rfl
@[simp] theorem State.setReg_M_regs (v : Byte) : (s.setReg .M v).regs = s.regs := rfl
@[simp] theorem State.setReg_gp_mem (x : Reg) (v : Byte) : (s.setReg (.gp x) v).mem = s.mem := rfl
@[simp] theorem State.setReg_M_mem (v : Byte) : (s.setReg .M v).mem = Memory.write s.mem s.hl.toNat v := rfl
@[simp] theorem State.setReg_params (r : RegName) (v : Byte) : (s.setReg r v).params = s.params := by cases r <;> rfl
@[simp] theorem State.setReg_flags (r : RegName) (v : Byte) : (s.setReg r v).flags = s.flags := by cases r <;> rfl
@[simp] theorem State.setReg_log (r : RegName) (v : Byte) : (s.setReg r v).log = s.log := by cases r <;> rfl
@[simp] theorem State.setReg_labels (r : RegName) (v : Byte) : (s.setReg r v).labels = s.labels := by cases r <;> rfl
@[simp] theorem State.setReg_mode (r : RegName) (v : Byte) : (s.setReg r v).mode = s.mode := by cases r <;> rfl
@[simp] theorem State.setReg_pc (r : RegName) (v : Byte) : (s.setReg r v).pc = s.pc := by cases r <;> rfl
@[simp] theorem State.setReg_display (r : RegName) (v : Byte) : (s.setReg r v).display = s.display := by cases r <;> rfl
@[simp] theorem State.setReg_errors (r : RegName) (v : Byte) : (s.setReg r v).errors = s.errors := by cases r <;> rfl
@[simp] theorem State.setReg_input (r : RegName) (v : Byte) : (s.setReg r v).input = s.input := by cases r <;> rfl
@[simp] theorem State.setReg_replies (r : RegName) (v : Byte) : (s.setReg r v).replies = s.replies := by cases r <;> rfl
@[simp] theorem State.setReg_freeDraws (r : RegName) (v : Byte) : (s.setReg r v).freeDraws = s.freeDraws := by cases r <;> rfl

/-! ## `State.setInrFlags`, `State.inxAtTop`, `State.displayAcc` -/

@[simp] theorem State.setInrFlags_params (y : Synth) : (s.setInrFlags y).params = s.params := by
  unfold State.setInrFlags; split <;> rfl
@[simp] theorem State.setInrFlags_regs (y : Synth) : (s.setInrFlags y).regs = s.regs := by
  unfold State.setInrFlags; split <;> rfl
@[simp] theorem State.setInrFlags_mem (y : Synth) : (s.setInrFlags y).mem = s.mem := by
  unfold State.setInrFlags; split <;> rfl
@[simp] theorem State.setInrFlags_log (y : Synth) : (s.setInrFlags y).log = s.log := by
  unfold State.setInrFlags; split <;> rfl
@[simp] theorem State.setInrFlags_labels (y : Synth) : (s.setInrFlags y).labels = s.labels := by
  unfold State.setInrFlags; split <;> rfl
@[simp] theorem State.setInrFlags_mode (y : Synth) : (s.setInrFlags y).mode = s.mode := by
  unfold State.setInrFlags; split <;> rfl
@[simp] theorem State.setInrFlags_pc (y : Synth) : (s.setInrFlags y).pc = s.pc := by
  unfold State.setInrFlags; split <;> rfl
@[simp] theorem State.setInrFlags_display (y : Synth) : (s.setInrFlags y).display = s.display := by
  unfold State.setInrFlags; split <;> rfl
@[simp] theorem State.setInrFlags_errors (y : Synth) : (s.setInrFlags y).errors = s.errors := by
  unfold State.setInrFlags; split <;> rfl
@[simp] theorem State.setInrFlags_input (y : Synth) : (s.setInrFlags y).input = s.input := by
  unfold State.setInrFlags; split <;> rfl
@[simp] theorem State.setInrFlags_replies (y : Synth) : (s.setInrFlags y).replies = s.replies := by
  unfold State.setInrFlags; split <;> rfl
@[simp] theorem State.setInrFlags_freeDraws (y : Synth) : (s.setInrFlags y).freeDraws = s.freeDraws := by
  unfold State.setInrFlags; split <;> rfl
@[simp] theorem State.inxAtTop_params (p : RegPair) : (s.inxAtTop p).params = s.params := by
  unfold State.inxAtTop; split <;> rfl
@[simp] theorem State.inxAtTop_flags (p : RegPair) : (s.inxAtTop p).flags = s.flags := by
  unfold State.inxAtTop; split <;> rfl
@[simp] theorem State.inxAtTop_mem (p : RegPair) : (s.inxAtTop p).mem = s.mem := by
  unfold State.inxAtTop; split <;> rfl
@[simp] theorem State.inxAtTop_log (p : RegPair) : (s.inxAtTop p).log = s.log := by
  unfold State.inxAtTop; split <;> rfl
@[simp] theorem State.inxAtTop_labels (p : RegPair) : (s.inxAtTop p).labels = s.labels := by
  unfold State.inxAtTop; split <;> rfl
@[simp] theorem State.inxAtTop_mode (p : RegPair) : (s.inxAtTop p).mode = s.mode := by
  unfold State.inxAtTop; split <;> rfl
@[simp] theorem State.inxAtTop_pc (p : RegPair) : (s.inxAtTop p).pc = s.pc := by
  unfold State.inxAtTop; split <;> rfl
@[simp] theorem State.inxAtTop_display (p : RegPair) : (s.inxAtTop p).display = s.display := by
  unfold State.inxAtTop; split <;> rfl
@[simp] theorem State.inxAtTop_input (p : RegPair) : (s.inxAtTop p).input = s.input := by
  unfold State.inxAtTop; split <;> rfl
@[simp] theorem State.inxAtTop_freeDraws (p : RegPair) : (s.inxAtTop p).freeDraws = s.freeDraws := by
  unfold State.inxAtTop; split <;> rfl
@[simp] theorem State.displayAcc_params (o : OutOperand) : (s.displayAcc o).params = s.params := by cases o <;> rfl
@[simp] theorem State.displayAcc_regs (o : OutOperand) : (s.displayAcc o).regs = s.regs := by cases o <;> rfl
@[simp] theorem State.displayAcc_flags (o : OutOperand) : (s.displayAcc o).flags = s.flags := by cases o <;> rfl
@[simp] theorem State.displayAcc_mem (o : OutOperand) : (s.displayAcc o).mem = s.mem := by cases o <;> rfl
@[simp] theorem State.displayAcc_log (o : OutOperand) : (s.displayAcc o).log = s.log := by cases o <;> rfl
@[simp] theorem State.displayAcc_labels (o : OutOperand) : (s.displayAcc o).labels = s.labels := by cases o <;> rfl
@[simp] theorem State.displayAcc_mode (o : OutOperand) : (s.displayAcc o).mode = s.mode := by cases o <;> rfl
@[simp] theorem State.displayAcc_pc (o : OutOperand) : (s.displayAcc o).pc = s.pc := by cases o <;> rfl
@[simp] theorem State.displayAcc_errors (o : OutOperand) : (s.displayAcc o).errors = s.errors := by cases o <;> rfl
@[simp] theorem State.displayAcc_input (o : OutOperand) : (s.displayAcc o).input = s.input := by cases o <;> rfl
@[simp] theorem State.displayAcc_replies (o : OutOperand) : (s.displayAcc o).replies = s.replies := by cases o <;> rfl

/-! ## `State.resolve` -/

@[simp] theorem State.resolve_params (q : Option Label) : (s.resolve q).params = s.params := by
  unfold State.resolve; repeat (first | rfl | split)
@[simp] theorem State.resolve_regs (q : Option Label) : (s.resolve q).regs = s.regs := by
  unfold State.resolve; repeat (first | rfl | split)
@[simp] theorem State.resolve_flags (q : Option Label) : (s.resolve q).flags = s.flags := by
  unfold State.resolve; repeat (first | rfl | split)
@[simp] theorem State.resolve_mem (q : Option Label) : (s.resolve q).mem = s.mem := by
  unfold State.resolve; repeat (first | rfl | split)
@[simp] theorem State.resolve_log (q : Option Label) : (s.resolve q).log = s.log := by
  unfold State.resolve; repeat (first | rfl | split)
@[simp] theorem State.resolve_labels (q : Option Label) : (s.resolve q).labels = s.labels := by
  unfold State.resolve; repeat (first | rfl | split)
@[simp] theorem State.resolve_display (q : Option Label) : (s.resolve q).display = s.display := by
  unfold State.resolve; repeat (first | rfl | split)
@[simp] theorem State.resolve_errors (q : Option Label) : (s.resolve q).errors = s.errors := by
  unfold State.resolve; repeat (first | rfl | split)
@[simp] theorem State.resolve_input (q : Option Label) : (s.resolve q).input = s.input := by
  unfold State.resolve; repeat (first | rfl | split)
@[simp] theorem State.resolve_freeDraws (q : Option Label) : (s.resolve q).freeDraws = s.freeDraws := by
  unfold State.resolve; repeat (first | rfl | split)
@[simp] theorem State.resolve_none_pc : (s.resolve none).pc = s.pc.next := rfl
@[simp] theorem State.resolve_none_mode : (s.resolve none).mode = s.mode := rfl
@[simp] theorem State.resolve_none_replies : (s.resolve none).replies = s.replies := rfl

end Sys2Proof.Machine
end

