-- ==== Sys2Proof/Laws/Engine.lean ====
section
/-! SUPPORT. What the engine's operations can do (spec/44_execution_engine.md), said once per operation. -/

namespace Sys2Proof.Machine

/-! ## The label index -/

theorem LabelIndex.find_cons (n : Label) (k : Nat) (ls : LabelIndex) (l : Label) :
    LabelIndex.find ((n, k) :: ls) l = if n = l then some k else LabelIndex.find ls l := rfl

/-- A label found keeps its index when the index grows at its end. -/
theorem LabelIndex.find_append_of_some {ls : LabelIndex} {l : Label} {k : Nat} (h : LabelIndex.find ls l = some k)
    (ms : LabelIndex) : LabelIndex.find (ls ++ ms) l = some k := by
  induction ls with
  | nil => cases h
  | cons x ls ih =>
    obtain ⟨n, j⟩ := x
    rw [List.cons_append, LabelIndex.find_cons]
    rw [LabelIndex.find_cons] at h
    split at h
    · next hn => rw [if_pos hn]; exact h
    · next hn => rw [if_neg hn]; exact ih h

/-- A label not found is looked for in what is added. -/
theorem LabelIndex.find_append_of_none {ls : LabelIndex} {l : Label} (h : LabelIndex.find ls l = none)
    (ms : LabelIndex) : LabelIndex.find (ls ++ ms) l = LabelIndex.find ms l := by
  induction ls with
  | nil => rfl
  | cons x ls ih =>
    obtain ⟨n, j⟩ := x
    rw [List.cons_append, LabelIndex.find_cons]
    rw [LabelIndex.find_cons] at h
    split at h
    · cases h
    · next hn => rw [if_neg hn]; exact ih h

/-- A label is undefined iff no pair of the index names it. -/
theorem LabelIndex.find_eq_none_iff {ls : LabelIndex} {l : Label} :
    LabelIndex.find ls l = none ↔ l ∉ ls.map Prod.fst := by
  induction ls with
  | nil => simp [LabelIndex.find]
  | cons x ls ih =>
    obtain ⟨n, j⟩ := x
    rw [LabelIndex.find_cons]
    by_cases hn : n = l
    · simp [hn]
    · simp [hn, ih, Ne.symm hn]

/-- With unique names, a pair of the index is what its name finds. -/
theorem LabelIndex.find_of_mem {ls : LabelIndex} (hu : (ls.map Prod.fst).Nodup) {l : Label} {k : Nat}
    (h : (l, k) ∈ ls) : LabelIndex.find ls l = some k := by
  induction ls with
  | nil => cases h
  | cons x ls ih =>
    obtain ⟨n, j⟩ := x
    have hu' := List.nodup_cons.mp hu
    rw [LabelIndex.find_cons]
    rcases List.mem_cons.mp h with h | h
    · cases h; exact if_pos rfl
    · rw [if_neg (fun e => hu'.1 (List.mem_map.mpr ⟨(l, k), h, e.symm⟩)), ih hu'.2 h]

/-- What a label finds is a pair of the index. -/
theorem LabelIndex.mem_of_find {ls : LabelIndex} {l : Label} {k : Nat} (h : LabelIndex.find ls l = some k) :
    (l, k) ∈ ls := by
  induction ls with
  | nil => cases h
  | cons x ls ih =>
    obtain ⟨n, j⟩ := x
    rw [LabelIndex.find_cons] at h
    split at h
    · next hn => cases h; subst hn; simp
    · exact List.mem_cons_of_mem _ (ih h)

/-- The label index of a log that grows by one entry. -/
theorem labelIndexFrom_append (es : List Entry) (e : Entry) (k : Nat) :
    labelIndexFrom k (es ++ [e]) = labelsAfterAppend (labelIndexFrom k es) e (k + es.length) := by
  induction es generalizing k with
  | nil => cases h : e.label <;> simp [labelIndexFrom, labelsAfterAppend, h]
  | cons x es ih =>
    have hk : k + 1 + es.length = k + (es.length + 1) := by omega
    cases hx : x.label <;> cases he : e.label <;>
      simp [labelIndexFrom, labelsAfterAppend, hx, he, ih, hk]

/-- A pair of a log's label index names the entry at its index. -/
theorem mem_labelIndexFrom {es : List Entry} {k j : Nat} {l : Label} :
    (l, j) ∈ labelIndexFrom k es ↔ ∃ i e, es[i]? = some e ∧ e.label = some l ∧ j = k + i := by
  induction es generalizing k with
  | nil => simp [labelIndexFrom]
  | cons x es ih =>
    have split_index : (∃ i e, (x :: es)[i]? = some e ∧ e.label = some l ∧ j = k + i) ↔
        (x.label = some l ∧ j = k) ∨ ∃ i e, es[i]? = some e ∧ e.label = some l ∧ j = k + 1 + i := by
      constructor
      · rintro ⟨i, e, h1, h2, h3⟩
        cases i with
        | zero => left; simp at h1; subst h1; exact ⟨h2, by omega⟩
        | succ i => right; exact ⟨i, e, by simpa using h1, h2, by omega⟩
      · rintro (⟨h1, h2⟩ | ⟨i, e, h1, h2, h3⟩)
        · exact ⟨0, x, by simp, h1, by omega⟩
        · exact ⟨i + 1, e, by simpa using h1, h2, by omega⟩
    rw [split_index, ← ih]
    cases hx : x.label with
    | none => simp [labelIndexFrom, hx]
    | some n =>
      simp only [labelIndexFrom, hx, List.mem_cons, Prod.mk.injEq, Option.some.injEq]
      tauto

/-! ## Appending -/

/-- R223: an append that is not rejected. -/
theorem addInstruction_of_newLabel {e : Entry} {s : State}
    (h : ∀ l, e.label = some l → LabelIndex.find s.labels l = none) :
    addInstruction e s =
      (.ok s.log.length,
        { s with
          log := s.log ++ [e]
          labels := labelsAfterAppend s.labels e s.log.length
          mode := modeAfterAppend s.mode e
          replies := s.replies ++ [.appended s.log.length] }) := by
  unfold addInstruction conflictingIndex
  cases hl : e.label with
  | none => rfl
  | some l => simp [h l hl]

/-- R223, R264: an append that is rejected. -/
theorem addInstruction_of_duplicate {e : Entry} {s : State} {l : Label} {k : Nat} (hl : e.label = some l)
    (hk : LabelIndex.find s.labels l = some k) :
    addInstruction e s = (.rejected k, s.report (.duplicateLabel l k)) := by
  simp [addInstruction, conflictingIndex, hl, hk]

/-- Either an append is rejected for a label already defined, or its label is new. -/
theorem duplicate_or_newLabel (e : Entry) (s : State) :
    (∃ l k, e.label = some l ∧ LabelIndex.find s.labels l = some k) ∨
    (∀ l, e.label = some l → LabelIndex.find s.labels l = none) := by
  cases hl : e.label with
  | none => exact .inr (by simp)
  | some l =>
    cases hk : LabelIndex.find s.labels l with
    | some k => exact .inl ⟨l, k, rfl, hk⟩
    | none => exact .inr (by rintro _ ⟨⟩; exact hk)

/-- R237: what a record does: one report; or an append that is rejected; or an append and then `executeNext`. -/
theorem processRecord_cases (r : Record) (s : State) :
    (∃ err, decode s.params r = .error err ∧ processRecord r s = s.report err) ∨
    (∃ e l k, decode s.params r = .ok e ∧ e.label = some l ∧ LabelIndex.find s.labels l = some k ∧
      processRecord r s = s.report (.duplicateLabel l k)) ∨
    (∃ e, decode s.params r = .ok e ∧ (∀ l, e.label = some l → LabelIndex.find s.labels l = none) ∧
      processRecord r s = executeNext (addInstruction e s).2) := by
  unfold processRecord
  cases hd : decode s.params r with
  | error err => exact .inl ⟨err, rfl, rfl⟩
  | ok e =>
    rcases duplicate_or_newLabel e s with ⟨l, k, hl, hk⟩ | hn
    · exact .inr (.inl ⟨e, l, k, rfl, hl, hk, by simp [addInstruction_of_duplicate hl hk]⟩)
    · exact .inr (.inr ⟨e, rfl, hn, by simp [addInstruction_of_newLabel hn]⟩)

/-- R237, R274: what a text line does: nothing, the end of the run, a dump, or a record. -/
theorem processLine_cases (text : String) (s : State) :
    processLine text s = s ∨ processLine text s = s.endRun ∨ processLine text s = s.reply (.dumped s.dump) ∨
    ∃ r, readLine text = .record r ∧ processLine text s = processRecord r s := by
  unfold processLine
  cases readLine text with
  | command c => cases c <;> simp [runCommand]
  | record r => exact .inr (.inr (.inr ⟨r, rfl, rfl⟩))

/-! ## Phases -/

/-- A walk in progress with the cursor inside the log is at an instruction. -/
theorem phase_of_entry {s : State} {k : Nat} {e : Entry} (hm : s.mode = .running) (hp : s.pc = .index k)
    (he : s.log[k]? = some e) : phase s = .eval e.instr := by
  simp [phase, hm, hp, he]

/-- A walk whose cursor is the length of the log is at its end. -/
theorem phase_of_end {s : State} (hm : s.mode = .running) (hp : s.pc = .index s.log.length) : phase s = .finish := by
  simp [phase, hm, hp]

/-- While suspended, and between walks, it is the host's turn. -/
theorem phase_of_host {s : State} (h : s.mode ≠ .running ∨ s.pc = .mostRecent) : phase s = .host := by
  unfold phase
  cases hm : s.mode with
  | suspended w => cases s.pc <;> rfl
  | running =>
    rcases h with h | h
    · exact absurd hm h
    · rw [h]

/-- What a step does, with the part of the state that decides it. -/
theorem step_cases (s : State) :
    ((s.mode ≠ .running ∨ s.pc = .mostRecent) ∧ step s = .next (hostStep s)) ∨
    (∃ k e, s.mode = .running ∧ s.pc = .index k ∧ s.log[k]? = some e ∧ step s = exec e.instr s) ∨
    (s.mode = .running ∧ s.pc = .index s.log.length ∧ step s = .next (finishWalk s)) ∨
    (∃ k, s.mode = .running ∧ s.pc = .index k ∧ s.log.length < k ∧ step s = .fault (.fetchOutsideLog k)) := by
  cases hm : s.mode with
  | suspended w =>
    refine .inl ⟨.inl (by simp), ?_⟩
    rw [step, phase_of_host (.inl (by simp [hm]))]
  | running =>
    cases hp : s.pc with
    | mostRecent =>
      refine .inl ⟨.inr rfl, ?_⟩
      rw [step, phase_of_host (.inr hp)]
    | index k =>
      cases hk : s.log[k]? with
      | some e =>
        refine .inr (.inl ⟨k, e, rfl, rfl, hk, ?_⟩)
        rw [step, phase_of_entry hm hp hk]
      | none =>
        have hle : s.log.length ≤ k := List.getElem?_eq_none_iff.mp hk
        rcases Nat.eq_or_lt_of_le hle with heq | hlt
        · refine .inr (.inr (.inl ⟨rfl, by rw [heq], ?_⟩))
          rw [step, phase_of_end hm (by rw [hp, heq])]
        · refine .inr (.inr (.inr ⟨k, rfl, rfl, hlt, ?_⟩))
          have hne : k ≠ s.log.length := by omega
          simp [step, phase, hm, hp, hk, hne]

end Sys2Proof.Machine
end

