-- ==== Sys2Proof/Laws/Flags.lean ====
section
/-! SUPPORT. What the two flag syntheses give (spec/41_arithmetic.md R130, R131), once for every operand. -/

namespace Sys2Proof.Machine

/-- R130: result and flags of the add policy as functions of the exact sum. -/
theorem addSynth_spec (sum : Nat) :
    (addSynth sum).res.toNat = sum % 256 ∧ (addSynth sum).cy = decide (255 < sum) ∧
      (addSynth sum).s = false ∧ (addSynth sum).z = decide (sum = 0) := by
  unfold addSynth
  split
  · next h => simp [h]; omega
  · next h =>
    split
    · next h0 => simp [h0]
    · next h0 => simp [h0]; omega

/-- R131: result and flags of the subtract policy as functions of a difference of two bytes. -/
theorem subSynth_spec (d : Int) (h : d.natAbs < 256) :
    (subSynth d).res.toNat = d.natAbs ∧ (subSynth d).cy = decide (d < 0) ∧
      (subSynth d).s = decide (d < 0) ∧ (subSynth d).z = decide (d = 0) := by
  unfold subSynth
  split
  · next hd => simp [hd, Nat.mod_eq_of_lt h]; omega
  · next hd =>
    split
    · next h0 => simp [h0]
    · next h0 => simp [hd, h0, Nat.mod_eq_of_lt h]

theorem exactDiff_natAbs_lt (a b : Byte) : (exactDiff a b).natAbs < 256 := by
  unfold exactDiff; omega

/-- R34: the helper called with all three names writes them and leaves AC. -/
@[simp] theorem Flags.update_all (f : Flags) (c s z : Bool) :
    f.update (some c) (some s) (some z) = ⟨c, f.ac, z, s⟩ := rfl

/-- R34: the helper called with no name changes nothing. -/
@[simp] theorem Flags.update_none (f : Flags) : f.update none none none = f := rfl

end Sys2Proof.Machine
end

