-- ==== Sys2Proof/Laws/Memory.lean ====
section
/-! SUPPORT. The laws of data memory (spec/20_memory.md R51, R61): a read after a write, the canonical form kept by every
memory operation, and equal readings of canonical memories being equal data. -/

namespace Sys2Proof.Machine

@[simp] theorem Memory.read_nil (a : Nat) : Memory.read [] a = 0 := rfl

theorem Memory.read_cons (c : Host.Cell) (m : Memory) (a : Nat) :
    Memory.read (c :: m) a = if c.1 = a then c.2 else Memory.read m a := rfl

/-- An address that no cell lists reads 0x00. -/
theorem Memory.read_eq_zero_of_notListed {m : Memory} {a : Nat} (h : ∀ c ∈ m, c.1 ≠ a) : Memory.read m a = 0 := by
  induction m with
  | nil => rfl
  | cons c m ih =>
    rw [Memory.read_cons, if_neg (h c (by simp)), ih fun d hd => h d (by simp [hd])]

/-- Dropping the cells at `a` leaves every other address alone. -/
theorem Memory.read_filter_ne {m : Memory} {a b : Nat} (h : b ≠ a) :
    Memory.read (m.filter (fun c => c.1 != a)) b = Memory.read m b := by
  induction m with
  | nil => rfl
  | cons c m ih =>
    by_cases hc : c.1 = a
    · have hb : c.1 ≠ b := fun e => h (e.symm.trans hc)
      simp [hc, Memory.read_cons, ih]
      exact fun e => (hb (hc.trans e)).elim
    · simp [hc, Memory.read_cons, ih]

/-- Inserting a cell whose address is not listed reads as that cell there, and as before elsewhere. -/
theorem Memory.read_insertCell {c : Host.Cell} {m : Memory} (h : ∀ d ∈ m, d.1 ≠ c.1) (b : Nat) :
    Memory.read (Memory.insertCell c m) b = if c.1 = b then c.2 else Memory.read m b := by
  induction m with
  | nil => rfl
  | cons d m ih =>
    have hd : d.1 ≠ c.1 := h d (by simp)
    have ih' := ih fun x hx => h x (by simp [hx])
    unfold Memory.insertCell
    split
    · rfl
    · rw [Memory.read_cons, ih', Memory.read_cons]
      by_cases hb : c.1 = b
      · rw [if_neg (fun e => hd (e.trans hb.symm)), if_pos hb, if_pos hb]
      · rw [if_neg hb, if_neg hb]

theorem Memory.write_zero (m : Memory) (a : Nat) : Memory.write m a 0 = m.filter (fun c => c.1 != a) := rfl

theorem Memory.write_nonzero (m : Memory) (a : Nat) {v : Byte} (h : v ≠ 0) :
    Memory.write m a v = Memory.insertCell (a, v) (m.filter (fun c => c.1 != a)) := if_neg h

theorem Memory.filter_notListed (m : Memory) (a : Nat) : ∀ d ∈ m.filter (fun c => c.1 != a), d.1 ≠ a :=
  fun d hd => by simpa using (List.mem_filter.mp hd).2

/-- R51, R61: a read gives the value of the last write to the same address, and no write reaches another address. -/
theorem Memory.read_write (m : Memory) (a b : Nat) (v : Byte) :
    Memory.read (Memory.write m a v) b = if b = a then v else Memory.read m b := by
  by_cases hv : v = 0
  · subst hv
    rw [Memory.write_zero]
    split
    · next hb => rw [hb, Memory.read_eq_zero_of_notListed (Memory.filter_notListed m a)]
    · next hb => exact Memory.read_filter_ne hb
  · rw [Memory.write_nonzero m a hv, Memory.read_insertCell (c := (a, v)) (Memory.filter_notListed m a)]
    by_cases hb : b = a
    · rw [if_pos hb.symm, if_pos hb]
    · rw [if_neg (Ne.symm hb), if_neg hb, Memory.read_filter_ne hb]

theorem Memory.mem_insertCell {c d : Host.Cell} {m : Memory} (h : d ∈ Memory.insertCell c m) : d = c ∨ d ∈ m := by
  induction m with
  | nil => simpa [Memory.insertCell] using h
  | cons x m ih =>
    unfold Memory.insertCell at h
    split at h
    · simpa using h
    · rcases List.mem_cons.mp h with h | h
      · exact .inr (by simp [h])
      · rcases ih h with h | h
        · exact .inl h
        · exact .inr (by simp [h])

theorem Memory.insertCell_sorted {c : Host.Cell} {m : Memory} (hs : m.Pairwise (fun x y => x.1 < y.1))
    (h : ∀ d ∈ m, d.1 ≠ c.1) : (Memory.insertCell c m).Pairwise (fun x y => x.1 < y.1) := by
  induction m with
  | nil => simp [Memory.insertCell]
  | cons d m ih =>
    have ⟨hd, hm⟩ := List.pairwise_cons.mp hs
    unfold Memory.insertCell
    split
    next hlt =>
      exact List.pairwise_cons.mpr ⟨fun x hx => by
        rcases List.mem_cons.mp hx with rfl | hx
        · exact hlt
        · exact Nat.lt_trans hlt (hd x hx), hs⟩
    next hlt =>
      have hne : d.1 ≠ c.1 := h d (by simp)
      refine List.pairwise_cons.mpr ⟨fun x hx => ?_, ih hm fun x hx => h x (by simp [hx])⟩
      rcases Memory.mem_insertCell hx with rfl | hx
      · omega
      · exact hd x hx

/-- Every write keeps the canonical form. -/
theorem Memory.write_wf {m : Memory} (h : Memory.wf m) {a : Nat} (ha : a < 65536) (v : Byte) :
    Memory.wf (Memory.write m a v) := by
  have hsorted := h.1.filter (fun c => c.1 != a)
  have hcells : ∀ d ∈ m.filter (fun c => c.1 != a), d.1 < 65536 ∧ d.2 ≠ 0 := fun d hd =>
    h.2 d (List.mem_filter.mp hd).1
  by_cases hv : v = 0
  · subst hv
    exact ⟨hsorted, hcells⟩
  · rw [Memory.write_nonzero m a hv]
    refine ⟨Memory.insertCell_sorted hsorted (Memory.filter_notListed m a), fun d hd => ?_⟩
    rcases Memory.mem_insertCell hd with rfl | hd
    · exact ⟨ha, hv⟩
    · exact hcells d hd

/-- The memory right after reset has the canonical form. -/
theorem Memory.reset_wf : Memory.wf State.reset.mem := by decide

/-- R275: the memory that a snapshot loads has the canonical form. -/
theorem memoryOf_wf (cells : List (Word × Byte)) : Memory.wf (memoryOf cells) := by
  have keep : ∀ (cs : List (Word × Byte)) (m : Memory), Memory.wf m →
      Memory.wf (cs.foldl (fun m x => Memory.write m x.1.toNat x.2) m) := by
    intro cs
    induction cs with
    | nil => exact fun m h => h
    | cons c cs ih => exact fun m h => ih _ (Memory.write_wf h c.1.isLt c.2)
  exact keep cells [] ⟨List.Pairwise.nil, by simp⟩

/-- A cell of a canonical memory reads as itself. -/
theorem Memory.read_of_mem {m : Memory} (h : Memory.wf m) {c : Host.Cell} (hc : c ∈ m) : Memory.read m c.1 = c.2 := by
  induction m with
  | nil => cases hc
  | cons d m ih =>
    have ⟨hd, hm⟩ := List.pairwise_cons.mp h.1
    rw [Memory.read_cons]
    rcases List.mem_cons.mp hc with rfl | hc
    · exact if_pos rfl
    · rw [if_neg (Nat.ne_of_lt (hd c hc)), ih ⟨hm, fun x hx => h.2 x (by simp [hx])⟩ hc]

/-- Canonical memories that read alike are equal data. -/
theorem Memory.ext_read {m n : Memory} (hm : Memory.wf m) (hn : Memory.wf n)
    (h : ∀ a, Memory.read m a = Memory.read n a) : m = n := by
  induction m generalizing n with
  | nil =>
    cases n with
    | nil => rfl
    | cons d n =>
      have := h d.1
      rw [Memory.read_of_mem hn (by simp)] at this
      exact absurd this.symm (hn.2 d (by simp)).2
  | cons c m ih =>
    cases n with
    | nil =>
      have := h c.1
      rw [Memory.read_of_mem hm (by simp)] at this
      exact absurd this (hm.2 c (by simp)).2
    | cons d n =>
      have ⟨hc, hm'⟩ := List.pairwise_cons.mp hm.1
      have ⟨hd, hn'⟩ := List.pairwise_cons.mp hn.1
      have hfst : c.1 = d.1 := by
        rcases Nat.lt_trichotomy c.1 d.1 with hlt | heq | hgt
        · have hz : Memory.read (d :: n) c.1 = 0 := Memory.read_eq_zero_of_notListed fun x hx => by
            rcases List.mem_cons.mp hx with rfl | hx
            · omega
            · have := hd x hx; omega
          have := h c.1
          rw [Memory.read_of_mem hm (by simp), hz] at this
          exact absurd this (hm.2 c (by simp)).2
        · exact heq
        · have hz : Memory.read (c :: m) d.1 = 0 := Memory.read_eq_zero_of_notListed fun x hx => by
            rcases List.mem_cons.mp hx with rfl | hx
            · omega
            · have := hc x hx; omega
          have := h d.1
          rw [Memory.read_of_mem hn (by simp), hz] at this
          exact absurd this.symm (hn.2 d (by simp)).2
      have hcd : c = d := Prod.ext hfst (by
        have := h c.1
        rw [Memory.read_of_mem hm (by simp), hfst, Memory.read_of_mem hn (by simp)] at this
        exact this)
      subst hcd
      congr 1
      refine ih ⟨hm', fun x hx => hm.2 x (by simp [hx])⟩ ⟨hn', fun x hx => hn.2 x (by simp [hx])⟩ fun a => ?_
      by_cases ha : c.1 = a
      · subst ha
        rw [Memory.read_eq_zero_of_notListed fun x hx => Nat.ne_of_gt (hc x hx),
          Memory.read_eq_zero_of_notListed fun x hx => Nat.ne_of_gt (hd x hx)]
      · have := h a
        simpa [Memory.read_cons, ha] using this

end Sys2Proof.Machine
end

