-- ==== Sys2Proof/Laws/Registers.lean ====
section
/-! SUPPORT. The laws of the register file and its pair views (spec/10_state.md R20, R25, R26, R27). -/

namespace Sys2Proof

/-- R12: a register write reaches exactly its register. -/
@[simp] theorem RegFile.get_set (f : RegFile) (r x : Reg) (v : Byte) :
    (f.set r v).get x = if r = x then v else f.get x := by
  cases r <;> cases x <;> rfl

/-- Register files that agree on every register are equal. -/
theorem RegFile.ext_get {f g : RegFile} (h : ∀ r, f.get r = g.get r) : f = g := by
  obtain ⟨hA, hB, hC, hD, hE, hH, hL⟩ : _ ∧ _ ∧ _ ∧ _ ∧ _ ∧ _ ∧ _ :=
    ⟨h .A, h .B, h .C, h .D, h .E, h .H, h .L⟩
  cases f; cases g
  simp_all [RegFile.get]

theorem RegPair.high_ne_low (p q : RegPair) : p.high ≠ q.low := by
  cases p <;> cases q <;> decide

namespace Machine

theorem concatBytes_toNat (hi lo : Byte) : (concatBytes hi lo).toNat = hi.toNat * 256 + lo.toNat := by
  have h1 := hi.isLt
  have h2 := lo.isLt
  simp [concatBytes]
  omega

theorem highByte_toNat (w : Word) : (highByte w).toNat = w.toNat / 256 := by
  have h := w.isLt
  simp [highByte]
  omega

theorem lowByte_toNat (w : Word) : (lowByte w).toNat = w.toNat % 256 := by
  simp [lowByte]

@[simp] theorem highByte_concatBytes (hi lo : Byte) : highByte (concatBytes hi lo) = hi := by
  apply BitVec.eq_of_toNat_eq
  rw [highByte_toNat, concatBytes_toNat]
  have := lo.isLt
  omega

@[simp] theorem lowByte_concatBytes (hi lo : Byte) : lowByte (concatBytes hi lo) = lo := by
  apply BitVec.eq_of_toNat_eq
  rw [lowByte_toNat, concatBytes_toNat]
  have := lo.isLt
  omega

@[simp] theorem concatBytes_split (w : Word) : concatBytes (highByte w) (lowByte w) = w := by
  apply BitVec.eq_of_toNat_eq
  rw [concatBytes_toNat, highByte_toNat, lowByte_toNat]
  omega

end Machine

/-- R26: a pair write reaches its two registers and no other. -/
theorem RegFile.get_setPair (f : RegFile) (p : RegPair) (w : Word) (x : Reg) :
    (f.setPair p w).get x =
      if p.low = x then Machine.lowByte w else if p.high = x then Machine.highByte w else f.get x := by
  simp [RegFile.setPair]

/-- R25, R26: a pair reads back the word written to it. -/
@[simp] theorem RegFile.pair_setPair (f : RegFile) (p : RegPair) (w : Word) : (f.setPair p w).pair p = w := by
  have h : p.low ≠ p.high := (RegPair.high_ne_low p p).symm
  simp [RegFile.pair, RegFile.get_setPair, h]

/-- R27: the pairs do not overlap. -/
theorem RegFile.pair_setPair_of_ne (f : RegFile) {p q : RegPair} (h : p ≠ q) (w : Word) :
    (f.setPair p w).pair q = f.pair q := by
  cases p <;> cases q <;> first | exact absurd rfl h | rfl

end Sys2Proof
end

