-- ==== Sys2Proof/Laws/Exec.lean ====
section
/-! SUPPORT. What one instruction can do, said once: its handler leaves a state and a request (R227), the engine resolves the
request (R229). -/

namespace Sys2Proof.Machine

/-- What a handler leaves alone, whichever it is: the engine, the cursor and AC; the streams only grow, and the memory keeps
its canonical form. -/
structure HandlerFrame (s u : State) : Prop where
  engine  : SameEngine s u
  pc      : u.pc = s.pc
  ac      : u.flags.ac = s.flags.ac
  display : s.display <+: u.display
  errors  : s.errors <+: u.errors
  replies : s.replies <+: u.replies
  memory  : Memory.wf s.mem → Memory.wf u.mem

theorem HandlerFrame.refl (s : State) : HandlerFrame s s :=
  ⟨⟨rfl, rfl, rfl, rfl, rfl⟩, rfl, rfl, List.prefix_refl _, List.prefix_refl _, List.prefix_refl _, id⟩

theorem HandlerFrame.trans {s u v : State} (h : HandlerFrame s u) (k : HandlerFrame u v) : HandlerFrame s v where
  engine := ⟨k.engine.params.trans h.engine.params, k.engine.log.trans h.engine.log, k.engine.labels.trans h.engine.labels,
    k.engine.mode.trans h.engine.mode, k.engine.input.trans h.engine.input⟩
  pc := k.pc.trans h.pc
  ac := k.ac.trans h.ac
  display := h.display.trans k.display
  errors := h.errors.trans k.errors
  replies := h.replies.trans k.replies
  memory := k.memory ∘ h.memory

/-! ### The frame of each operation a handler is made of -/

/-- An update of registers and flags, AC left alone, is a frame. -/
theorem HandlerFrame.of_regs_flags (s : State) (f : RegFile) (g : Flags) (h : g.ac = s.flags.ac) :
    HandlerFrame s { s with regs := f, flags := g } :=
  ⟨⟨rfl, rfl, rfl, rfl, rfl⟩, rfl, h, List.prefix_refl _, List.prefix_refl _, List.prefix_refl _, id⟩

theorem HandlerFrame.memWrite (s : State) (a : Word) (v : Byte) : HandlerFrame s (s.memWrite a v) :=
  ⟨⟨rfl, rfl, rfl, rfl, rfl⟩, rfl, rfl, List.prefix_refl _, List.prefix_refl _, List.prefix_refl _,
    fun h => Memory.write_wf h a.isLt v⟩

theorem HandlerFrame.setReg (s : State) (r : RegName) (v : Byte) : HandlerFrame s (s.setReg r v) := by
  cases r with
  | gp x => exact .of_regs_flags s _ _ rfl
  | M => exact .memWrite s _ v

theorem HandlerFrame.setFlags (s : State) (y : Synth) : HandlerFrame s (s.setFlags y) :=
  .of_regs_flags s _ _ rfl

theorem HandlerFrame.setInrFlags (s : State) (y : Synth) : HandlerFrame s (s.setInrFlags y) := by
  unfold State.setInrFlags
  split
  · exact .setFlags s y
  · exact .refl s

theorem HandlerFrame.report (s : State) (e : ErrorReport) : HandlerFrame s (s.report e) :=
  ⟨⟨rfl, rfl, rfl, rfl, rfl⟩, rfl, rfl, List.prefix_refl _, List.prefix_append _ _, List.prefix_append _ _, id⟩

theorem HandlerFrame.displayAcc (s : State) (o : OutOperand) : HandlerFrame s (s.displayAcc o) := by
  cases o <;>
    exact ⟨⟨rfl, rfl, rfl, rfl, rfl⟩, rfl, rfl, List.prefix_append _ _, List.prefix_refl _, List.prefix_refl _, id⟩

theorem HandlerFrame.inxAtTop (s : State) (p : RegPair) : HandlerFrame s (s.inxAtTop p) := by
  unfold State.inxAtTop
  split
  · exact .of_regs_flags s _ _ rfl
  · exact .report s _

/-- R227: every instruction is a handler that leaves the engine alone, and a request; only a jump asks for a label, and it
changes nothing itself. -/
theorem exec_cases (i : Instr) (s : State) :
    ∃ u q, exec i s = .next (u.resolve q) ∧ HandlerFrame s u ∧
      (isJump i = false → q = none) ∧ (isJump i = true → u = s) := by
  cases i with
  | mov dst src => exact ⟨_, none, rfl, .setReg s dst _, fun _ => rfl, by simp [isJump]⟩
  | mvi dst data => exact ⟨_, none, rfl, .setReg s dst _, fun _ => rfl, by simp [isJump]⟩
  | ldax p => exact ⟨_, none, rfl, .of_regs_flags s _ _ rfl, fun _ => rfl, by simp [isJump]⟩
  | stax p => exact ⟨_, none, rfl, .memWrite s _ _, fun _ => rfl, by simp [isJump]⟩
  | lxi p data => exact ⟨_, none, rfl, .of_regs_flags s _ _ rfl, fun _ => rfl, by simp [isJump]⟩
  | add src => exact ⟨_, none, rfl, .of_regs_flags s _ _ rfl, fun _ => rfl, by simp [isJump]⟩
  | adi data => exact ⟨_, none, rfl, .of_regs_flags s _ _ rfl, fun _ => rfl, by simp [isJump]⟩
  | sub src => exact ⟨_, none, rfl, .of_regs_flags s _ _ rfl, fun _ => rfl, by simp [isJump]⟩
  | sui data => exact ⟨_, none, rfl, .of_regs_flags s _ _ rfl, fun _ => rfl, by simp [isJump]⟩
  | cmp src => exact ⟨_, none, rfl, .setFlags s _, fun _ => rfl, by simp [isJump]⟩
  | cpi data => exact ⟨_, none, rfl, .setFlags s _, fun _ => rfl, by simp [isJump]⟩
  | inr r => exact ⟨_, none, rfl, (HandlerFrame.setReg s r _).trans (.setInrFlags _ _), fun _ => rfl, by simp [isJump]⟩
  | dcr r => exact ⟨_, none, rfl, (HandlerFrame.setReg s r _).trans (.setFlags _ _), fun _ => rfl, by simp [isJump]⟩
  | inx p =>
    refine ⟨_, none, rfl, ?_, fun _ => rfl, by simp [isJump]⟩
    split
    · exact .of_regs_flags s _ _ rfl
    · exact .inxAtTop s p
  | dcx p =>
    refine ⟨_, none, rfl, ?_, fun _ => rfl, by simp [isJump]⟩
    split
    · exact .report s _
    · exact .of_regs_flags s _ _ rfl
  | jz l => exact ⟨s, _, rfl, .refl s, by simp [isJump], fun _ => rfl⟩
  | jnz l => exact ⟨s, _, rfl, .refl s, by simp [isJump], fun _ => rfl⟩
  | jc l => exact ⟨s, _, rfl, .refl s, by simp [isJump], fun _ => rfl⟩
  | jnc l => exact ⟨s, _, rfl, .refl s, by simp [isJump], fun _ => rfl⟩
  | out o => exact ⟨_, none, rfl, .displayAcc s o, fun _ => rfl, by simp [isJump]⟩
  | hlt => exact ⟨s, none, rfl, .refl s, fun _ => rfl, fun _ => rfl⟩

/-- What resolving a request does, by the three cases of R229. -/
theorem State.resolve_cases (s : State) (q : Option Label) :
    (q = none ∧ s.resolve q = { s with pc := s.pc.next }) ∨
    (∃ l k, q = some l ∧ LabelIndex.find s.labels l = some k ∧ s.resolve q = { s with pc := .index k }) ∨
    (∃ l, q = some l ∧ LabelIndex.find s.labels l = none ∧ s.resolve q = s.suspend l) := by
  cases q with
  | none => exact .inl ⟨rfl, rfl⟩
  | some l =>
    cases h : LabelIndex.find s.labels l with
    | some k => exact .inr (.inl ⟨l, k, rfl, h, by simp [State.resolve, h]⟩)
    | none => exact .inr (.inr ⟨l, rfl, h, by simp [State.resolve, h]⟩)

/-- R140: INX below 0xFFFF. -/
theorem exec_inx_of_lt {p : RegPair} {s : State} (h : (s.regs.pair p).toNat < 0xFFFF) :
    exec (.inx p) s = .next ((s.setPair p (s.regs.pair p + 1)).resolve none) := by
  show complete (if (s.pair p).toNat < 0xFFFF then s.setPair p (s.pair p + 1) else s.inxAtTop p) none = _
  rw [if_pos (show (s.pair p).toNat < 0xFFFF from h)]
  rfl

/-- R140: INX at 0xFFFF. -/
theorem exec_inx_at_top {p : RegPair} {s : State} (h : s.regs.pair p = 0xFFFF) :
    exec (.inx p) s = .next ((s.inxAtTop p).resolve none) := by
  simp [exec, execInx, complete, State.pair, h]

/-- R141: DCX at 0x0000. -/
theorem exec_dcx_of_zero {p : RegPair} {s : State} (h : s.regs.pair p = 0) :
    exec (.dcx p) s = .next ((s.report (.pairUnderflow p)).resolve none) := by
  show complete (if s.pair p = 0x0000 then s.report (.pairUnderflow p) else s.setPair p (s.pair p - 1)) none = _
  rw [if_pos (show s.pair p = 0x0000 from h)]
  rfl

/-- R141: DCX above 0x0000. -/
theorem exec_dcx_of_ne_zero {p : RegPair} {s : State} (h : s.regs.pair p ≠ 0) :
    exec (.dcx p) s = .next ((s.setPair p (s.regs.pair p - 1)).resolve none) := by
  show complete (if s.pair p = 0x0000 then s.report (.pairUnderflow p) else s.setPair p (s.pair p - 1)) none = _
  rw [if_neg (show ¬ s.pair p = 0x0000 from h)]
  rfl

/-- A register name writes what `OperandWritten` says. -/
theorem State.setReg_written (s : State) (r : RegName) (v : Byte) : OperandWritten r v s (s.setReg r v) := by
  cases r with
  | gp x => exact ⟨fun y => by simp, fun a => by simp⟩
  | M => exact ⟨fun y => by simp, fun a => by simp [State.hl, Memory.read_write]⟩

/-- `OperandWritten` speaks of registers and memory only. -/
theorem OperandWritten.congr {r : RegName} {v : Byte} {s t u : State} (h : OperandWritten r v s t)
    (hr : u.regs = t.regs) (hm : u.mem = t.mem) : OperandWritten r v s u :=
  ⟨fun x => by rw [hr]; exact h.regs x, fun a => by rw [hm]; exact h.mem a⟩

end Sys2Proof.Machine
end

