-- ==== Sys2Proof/Laws/Host.lean ====
section
/-! SUPPORT. What the host's requests can do (spec/60_exceptions.md R273 to R275, R282), said once per operation. -/

namespace Sys2Proof.Machine

/-- R226: `executeNext` evaluates nothing itself: it moves the cursor, or answers, or clears a suspension. -/
theorem executeNext_frame (s : State) :
    SameMachineState s (executeNext s) ∧ (executeNext s).display = s.display ∧ (executeNext s).params = s.params ∧
      (executeNext s).log = s.log ∧ (executeNext s).labels = s.labels ∧ (executeNext s).errors = s.errors ∧
      (executeNext s).input = s.input ∧ s.replies <+: (executeNext s).replies := by
  unfold executeNext
  split
  · split
    · exact ⟨⟨rfl, rfl, rfl⟩, rfl, rfl, rfl, rfl, rfl, rfl, List.prefix_append _ _⟩
    · exact ⟨⟨rfl, rfl, rfl⟩, rfl, rfl, rfl, rfl, rfl, rfl, List.prefix_refl _⟩
  · exact ⟨⟨rfl, rfl, rfl⟩, rfl, rfl, rfl, rfl, rfl, rfl, List.prefix_append _ _⟩

/-- R233, R237: presenting a record evaluates no instruction. -/
theorem processRecord_machine (r : Record) (s : State) :
    SameMachineState s (processRecord r s) ∧ (processRecord r s).display = s.display ∧
      (processRecord r s).params = s.params := by
  rcases processRecord_cases r s with ⟨err, _, h⟩ | ⟨e, l, k, _, _, _, h⟩ | ⟨e, _, hn, h⟩ <;> rw [h]
  · exact ⟨⟨rfl, rfl, rfl⟩, rfl, rfl⟩
  · exact ⟨⟨rfl, rfl, rfl⟩, rfl, rfl⟩
  · obtain ⟨h1, h2, h3, _⟩ := executeNext_frame (addInstruction e s).2
    rw [addInstruction_of_newLabel hn] at h1 h2 h3 ⊢
    exact ⟨⟨h1.regs, h1.flags, h1.mem⟩, h2, h3⟩

/-- R282: no request but `load` reaches registers, flags or memory, and none drives the display. -/
theorem serve_machine (q : HostRequest) (s : State) (h : ∀ x, q ≠ .load x) :
    SameMachineState s (serve q s) ∧ (serve q s).display = s.display := by
  cases q with
  | load x => exact absurd rfl (h x)
  | line text =>
    rcases processLine_cases text s with h | h | h | ⟨r, _, h⟩ <;> simp only [serve, h]
    · exact ⟨⟨rfl, rfl, rfl⟩, trivial⟩
    · exact ⟨⟨rfl, rfl, rfl⟩, rfl⟩
    · exact ⟨⟨rfl, rfl, rfl⟩, rfl⟩
    · exact ⟨(processRecord_machine r s).1, (processRecord_machine r s).2.1⟩
  | inspect => exact ⟨⟨rfl, rfl, rfl⟩, rfl⟩
  | save => exact ⟨⟨rfl, rfl, rfl⟩, rfl⟩
  | quit => exact ⟨⟨rfl, rfl, rfl⟩, rfl⟩

/-- No request reaches the flags. -/
theorem hostStep_flags (s : State) : (hostStep s).flags = s.flags := by
  unfold hostStep
  split
  · rfl
  · next q rest _ =>
    by_cases hl : ∃ x, q = .load x
    · obtain ⟨x, rfl⟩ := hl
      rfl
    · rw [(serve_machine q _ fun x hx => hl ⟨x, hx⟩).1.flags]

/-- The step of the host, between walks. -/
theorem step_of_host {s : State} (h : TakesRequest s) : step s = .next (hostStep s) := by
  rw [step, phase_of_host h]

/-- R282: the step that takes a request serves it. -/
theorem step_of_request {s : State} (h : TakesRequest s) {q : HostRequest} {rest : List HostRequest}
    (hq : s.input = q :: rest) : step s = .next (serve q { s with input := rest }) := by
  rw [step_of_host h, hostStep, hq]

/-- R275: the `registers` mapping names every register once, with its value. -/
theorem mem_registerMapping {f : RegFile} {r : Reg} {v : Byte} : (r, v) ∈ registerMapping f ↔ v = f.get r := by
  cases r <;> simp [registerMapping, RegFile.get]

/-- R275: the `memory` mapping lists exactly the cells that are not 0x00. -/
theorem mem_memoryMapping {m : Memory} (h : Memory.wf m) {a : Word} {v : Byte} :
    (a, v) ∈ memoryMapping m ↔ v ≠ 0 ∧ Memory.read m a.toNat = v := by
  constructor
  · intro hm
    obtain ⟨c, hc, hcv⟩ := List.mem_map.mp hm
    have ha : a.toNat = c.1 := by
      rw [← (Prod.mk.inj hcv).1, BitVec.toNat_ofNat, Nat.mod_eq_of_lt (h.2 c hc).1]
    rw [ha, Memory.read_of_mem h hc, (Prod.mk.inj hcv).2]
    exact ⟨(Prod.mk.inj hcv).2 ▸ (h.2 c hc).2, rfl⟩
  · rintro ⟨hv, hr⟩
    have listed : ∃ c ∈ m, c.1 = a.toNat := by
      by_contra hn
      push Not at hn
      exact hv (hr ▸ Memory.read_eq_zero_of_notListed hn)
    obtain ⟨c, hc, ha⟩ := listed
    refine List.mem_map.mpr ⟨c, hc, Prod.ext ?_ ?_⟩
    · rw [ha]; simp
    · rw [← hr, ← ha, Memory.read_of_mem h hc]

/-- R275: the `memory` mapping names no address twice. -/
theorem memoryMapping_keys_nodup {m : Memory} (h : Memory.wf m) : ((memoryMapping m).map Prod.fst).Nodup := by
  have keys : (memoryMapping m).map Prod.fst = m.map (fun c => BitVec.ofNat 16 c.1) := by
    simp [memoryMapping, Function.comp_def]
  rw [keys, List.nodup_iff_pairwise_ne, List.pairwise_map]
  refine h.1.imp_of_mem fun {c d} hc hd hlt heq => ?_
  have := congrArg BitVec.toNat heq
  rw [BitVec.toNat_ofNat, BitVec.toNat_ofNat, Nat.mod_eq_of_lt (h.2 c hc).1, Nat.mod_eq_of_lt (h.2 d hd).1] at this
  omega

/-- R275: a load sets the registers it names, and no other. -/
theorem registersOf_spec {named : List (Reg × Byte)} (h : (named.map Prod.fst).Nodup) (f : RegFile) :
    (∀ r v, (r, v) ∈ named → (registersOf f named).get r = v) ∧
      ∀ r, r ∉ named.map Prod.fst → (registersOf f named).get r = f.get r := by
  induction named generalizing f with
  | nil => exact ⟨by simp, fun _ _ => rfl⟩
  | cons x named ih =>
    have hn := List.nodup_cons.mp h
    obtain ⟨set, kept⟩ := ih hn.2 (f.set x.1 x.2)
    have first : registersOf f (x :: named) = registersOf (f.set x.1 x.2) named := rfl
    refine ⟨fun r v hm => ?_, fun r hr => ?_⟩
    · rcases List.mem_cons.mp hm with rfl | hm
      · rw [first, kept r hn.1]; simp
      · exact set r v hm
    · simp only [List.map_cons, List.mem_cons, not_or] at hr
      rw [first, kept r hr.2]; simp [Ne.symm hr.1]

/-- R275: a load sets the cells it lists, and no other. -/
theorem read_writes {listed : List (Word × Byte)} (h : (listed.map Prod.fst).Nodup) (m : Memory) :
    let m' := listed.foldl (fun m x => Memory.write m x.1.toNat x.2) m
    (∀ (a : Word) v, (a, v) ∈ listed → Memory.read m' a.toNat = v) ∧
      ∀ a : Word, a ∉ listed.map Prod.fst → Memory.read m' a.toNat = Memory.read m a.toNat := by
  induction listed generalizing m with
  | nil => exact ⟨by simp, fun _ _ => rfl⟩
  | cons x listed ih =>
    have hn := List.nodup_cons.mp h
    obtain ⟨set, kept⟩ := ih hn.2 (Memory.write m x.1.toNat x.2)
    refine ⟨fun a v hm => ?_, fun a ha => ?_⟩
    · rcases List.mem_cons.mp hm with rfl | hm
      · rw [List.foldl_cons, kept _ hn.1]; simp [Memory.read_write]
      · exact set a v hm
    · simp only [List.map_cons, List.mem_cons, not_or] at ha
      rw [List.foldl_cons, kept a ha.2]; simp [Memory.read_write, ← BitVec.toNat_eq, ha.1]

/-- The entry appended under a new label is what its label finds. -/
theorem find_labelsAfterAppend {ls : LabelIndex} {e : Entry} {l : Label} (hl : e.label = some l)
    (hn : LabelIndex.find ls l = none) (k : Nat) : LabelIndex.find (labelsAfterAppend ls e k) l = some k := by
  simp [labelsAfterAppend, hl, LabelIndex.find_append_of_none hn, LabelIndex.find]

/-- A label that the appended entry does not carry finds what it found. -/
theorem find_labelsAfterAppend_of_ne {ls : LabelIndex} {e : Entry} {l : Label} (hl : e.label ≠ some l) (k : Nat) :
    LabelIndex.find (labelsAfterAppend ls e k) l = LabelIndex.find ls l := by
  unfold labelsAfterAppend
  split
  · rfl
  · next n hn =>
    have hne : n ≠ l := fun h => hl (by rw [hn, h])
    cases h : LabelIndex.find ls l with
    | some j => exact LabelIndex.find_append_of_some h _
    | none => rw [LabelIndex.find_append_of_none h, LabelIndex.find_cons, if_neg hne]; rfl

end Sys2Proof.Machine
end

