-- ==== Sys2Proof/Laws/PerInstr.lean ====
section
/-! SUPPORT. Facts about every instruction as syntax, one lemma per constructor (LAWS.json). -/

namespace Sys2Proof.Laws.EncodeArity

/-- R72, R76: a well-formed instruction is encoded under the mnemonic of its table row, with as many argument tokens as the
row declares parameters. -/
def Statement (i : Instr) : Prop :=
  ∀ p : Params, i.wellFormed p = true →
    ∃ row, lookupRow p i.mnemonic = some row ∧ row.mnemonic = i.mnemonic ∧ row.params.length = i.argTokens.length

theorem mov (dst src : RegName) : Statement (.mov dst src) := fun p _ => ⟨_, lookupRow_mnemonic p _, rfl, rfl⟩
theorem mvi (dst : RegName) (data : Byte) : Statement (.mvi dst data) := fun p _ => ⟨_, lookupRow_mnemonic p _, rfl, rfl⟩
theorem ldax (q : RegPair) : Statement (.ldax q) := fun p _ => ⟨_, lookupRow_mnemonic p _, rfl, rfl⟩
theorem stax (q : RegPair) : Statement (.stax q) := fun p _ => ⟨_, lookupRow_mnemonic p _, rfl, rfl⟩
theorem lxi (q : RegPair) (data : Word) : Statement (.lxi q data) := fun p _ => ⟨_, lookupRow_mnemonic p _, rfl, rfl⟩
theorem add (src : RegName) : Statement (.add src) := fun p _ => ⟨_, lookupRow_mnemonic p _, rfl, rfl⟩
theorem adi (data : Byte) : Statement (.adi data) := fun p _ => ⟨_, lookupRow_mnemonic p _, rfl, rfl⟩
theorem sub (src : RegName) : Statement (.sub src) := fun p _ => ⟨_, lookupRow_mnemonic p _, rfl, rfl⟩
theorem sui (data : Byte) : Statement (.sui data) := fun p _ => ⟨_, lookupRow_mnemonic p _, rfl, rfl⟩
theorem cmp (src : RegName) : Statement (.cmp src) := fun p _ => ⟨_, lookupRow_mnemonic p _, rfl, rfl⟩
theorem cpi (data : Byte) : Statement (.cpi data) := fun p _ => ⟨_, lookupRow_mnemonic p _, rfl, rfl⟩
theorem inr (r : RegName) : Statement (.inr r) := fun p _ => ⟨_, lookupRow_mnemonic p _, rfl, rfl⟩
theorem dcr (r : RegName) : Statement (.dcr r) := fun p _ => ⟨_, lookupRow_mnemonic p _, rfl, rfl⟩
theorem inx (q : RegPair) : Statement (.inx q) := fun p _ => ⟨_, lookupRow_mnemonic p _, rfl, rfl⟩
theorem dcx (q : RegPair) : Statement (.dcx q) := fun p _ => ⟨_, lookupRow_mnemonic p _, rfl, rfl⟩
theorem jz (target : Label) : Statement (.jz target) := fun p _ => ⟨_, lookupRow_mnemonic p _, rfl, rfl⟩
theorem jnz (target : Label) : Statement (.jnz target) := fun p _ => ⟨_, lookupRow_mnemonic p _, rfl, rfl⟩
theorem jc (target : Label) : Statement (.jc target) := fun p _ => ⟨_, lookupRow_mnemonic p _, rfl, rfl⟩
theorem jnc (target : Label) : Statement (.jnc target) := fun p _ => ⟨_, lookupRow_mnemonic p _, rfl, rfl⟩
theorem out (operand : OutOperand) : Statement (.out operand) := fun p h =>
  ⟨_, lookupRow_mnemonic p _, rfl, by
    cases operand <;> cases hp : p.outForm <;>
      simp_all [Instr.wellFormed, OutOperand.matchesForm, rowOf, outParams, Instr.argTokens, OutOperand.tokens]⟩
theorem hlt : Statement .hlt := fun p _ => ⟨_, lookupRow_mnemonic p _, rfl, rfl⟩

end Sys2Proof.Laws.EncodeArity
end

