-- ==== Sys2Proof/Tests/Slice0.lean ====
section
/-! SUPPORT. The model's own tests. The expected results are those of spec/95_test_vectors.md (W and V numbers), of the worked
examples in the rules (R numbers), or follow by hand from the rule named. Then one witness for each statement that has
hypotheses. -/

namespace Sys2Proof.Tests

open Sys2Proof.Machine

/-! ## Helpers -/

/-- The next state of an outcome, if it is one. -/
def nextOf : Host.Outcome State Fault Refusal → Option State
  | .next t => some t
  | .fault _ => none
  | .refused _ => none

/-- The reset state, in a walk at log index 3, with other registers, flags and memory. -/
def start (regs : RegFile := .zero) (flags : Flags := .reset) (mem : Memory := []) : State :=
  { State.reset with regs := regs, flags := flags, mem := mem, pc := .index 3 }

/-- `start` with the label L1 at index 0 (spec/95 section 2.3, "label present"). -/
def startL1 (flags : Flags) : State :=
  { start .zero flags with labels := [("L1", 0)] }

/-- Registers after an instruction. -/
def regsAfter (i : Instr) (s : State) : Option RegFile := (nextOf (exec i s)).map State.regs

/-- A, CY, S and Z after an instruction, as spec/95 writes them. -/
def aluAfter (i : Instr) (s : State) : Option (Byte × Bool × Bool × Bool) :=
  (nextOf (exec i s)).map fun t => (t.regs.A, t.flags.cy, t.flags.s, t.flags.z)

/-- B, CY, S and Z after an instruction. -/
def aluBAfter (i : Instr) (s : State) : Option (Byte × Bool × Bool × Bool) :=
  (nextOf (exec i s)).map fun t => (t.regs.B, t.flags.cy, t.flags.s, t.flags.z)

/-- The memory after an instruction. -/
def memAfter (i : Instr) (s : State) : Option Memory := (nextOf (exec i s)).map State.mem

/-- Cursor and mode after an instruction. -/
def engineAfter (i : Instr) (s : State) : Option (Cursor × Mode) :=
  (nextOf (exec i s)).map fun t => (t.pc, t.mode)

/-- The error of a decoded record, or its entry. -/
def errorOf (x : Except ErrorReport Entry) : Option ErrorReport :=
  match x with
  | .ok _ => none
  | .error e => some e

/-- The entry of a decoded record. -/
def entryOf (x : Except ErrorReport Entry) : Option Entry :=
  match x with
  | .ok e => some e
  | .error _ => none

/-- The entry that a text line decodes to. -/
def lineEntry (p : Params) (text : String) : Option Entry :=
  match readLine text with
  | .record r => entryOf (decode p r)
  | .command _ => none

/-- The error that a text line is rejected with. -/
def lineError (text : String) : Option ErrorReport :=
  match readLine text with
  | .record r => errorOf (decode .default r)
  | .command _ => none

/-- The parameters with OUT in its operandless form. -/
def nullaryParams : Params := { Params.default with outForm := .nullary }

/-! ## WellFormed refuses -/

theorem wellFormed_refuses_out_without_port : Instr.wellFormed .default (.out .nullary) = false := by decide
theorem wellFormed_refuses_out_with_port : Instr.wellFormed nullaryParams (.out (.port 1)) = false := by decide
theorem wellFormed_refuses_empty_target : Instr.wellFormed .default (.jz "") = false := by decide
theorem wellFormed_refuses_target_with_space :
    (Instr.wellFormed .default (.jz "A B") || Instr.wellFormed .default (.jnz "A B") ||
      Instr.wellFormed .default (.jc "A B") || Instr.wellFormed .default (.jnc "A B")) = false := by decide
theorem wellFormed_refuses_empty_label : Entry.wellFormed .default ⟨.hlt, some ""⟩ = false := by decide
theorem wellFormed_refuses_label_with_colon : Entry.wellFormed .default ⟨.hlt, some "A:B"⟩ = false := by decide
theorem wellFormed_refuses_label_with_space : Entry.wellFormed .default ⟨.hlt, some "A B"⟩ = false := by decide
theorem wellFormed_refuses_entry_of_bad_instr : Entry.wellFormed .default ⟨.out .nullary, some "A"⟩ = false := by decide
theorem wellFormed_admits : Entry.wellFormed .default ⟨.jz "2050", some "L1"⟩ = true := by decide

/-! ## Decoding: each constructor from a record written out from spec/30 R73 and R74 -/

theorem decode_mov : entryOf (decode .default ⟨some "MOV", ["B", "A"], none⟩) = some ⟨.mov (.gp .B) (.gp .A), none⟩ := by
  decide
theorem decode_mov_memory : entryOf (decode .default ⟨some "MOV", ["M", "H"], none⟩) = some ⟨.mov .M (.gp .H), none⟩ := by
  decide
theorem decode_mvi : entryOf (decode .default ⟨some "MVI", ["L", "2A"], none⟩) = some ⟨.mvi (.gp .L) 0x2A, none⟩ := by
  decide
theorem decode_ldax : entryOf (decode .default ⟨some "LDAX", ["D"], none⟩) = some ⟨.ldax .D, none⟩ := by decide
theorem decode_stax : entryOf (decode .default ⟨some "STAX", ["B"], none⟩) = some ⟨.stax .B, none⟩ := by decide
theorem decode_lxi : entryOf (decode .default ⟨some "LXI", ["H", "3344"], none⟩) = some ⟨.lxi .H 0x3344, none⟩ := by decide
theorem decode_add : entryOf (decode .default ⟨some "ADD", ["C"], none⟩) = some ⟨.add (.gp .C), none⟩ := by decide
theorem decode_adi : entryOf (decode .default ⟨some "ADI", ["20"], none⟩) = some ⟨.adi 0x20, none⟩ := by decide
theorem decode_sub : entryOf (decode .default ⟨some "SUB", ["D"], none⟩) = some ⟨.sub (.gp .D), none⟩ := by decide
theorem decode_sui : entryOf (decode .default ⟨some "SUI", ["10"], none⟩) = some ⟨.sui 0x10, none⟩ := by decide
theorem decode_cmp : entryOf (decode .default ⟨some "CMP", ["E"], none⟩) = some ⟨.cmp (.gp .E), none⟩ := by decide
theorem decode_cpi : entryOf (decode .default ⟨some "CPI", ["05"], none⟩) = some ⟨.cpi 0x05, none⟩ := by decide
theorem decode_inr : entryOf (decode .default ⟨some "INR", ["M"], none⟩) = some ⟨.inr .M, none⟩ := by decide
theorem decode_dcr : entryOf (decode .default ⟨some "DCR", ["B"], none⟩) = some ⟨.dcr (.gp .B), none⟩ := by decide
theorem decode_inx : entryOf (decode .default ⟨some "INX", ["H"], none⟩) = some ⟨.inx .H, none⟩ := by decide
theorem decode_dcx : entryOf (decode .default ⟨some "DCX", ["D"], none⟩) = some ⟨.dcx .D, none⟩ := by decide
theorem decode_jz : entryOf (decode .default ⟨some "JZ", ["2050"], none⟩) = some ⟨.jz "2050", none⟩ := by decide
theorem decode_jnz : entryOf (decode .default ⟨some "JNZ", ["LOOP"], none⟩) = some ⟨.jnz "LOOP", none⟩ := by decide
theorem decode_jc : entryOf (decode .default ⟨some "JC", ["L1"], none⟩) = some ⟨.jc "L1", none⟩ := by decide
theorem decode_jnc : entryOf (decode .default ⟨some "JNC", ["L1"], none⟩) = some ⟨.jnc "L1", none⟩ := by decide
theorem decode_out : entryOf (decode .default ⟨some "OUT", ["FF"], none⟩) = some ⟨.out (.port 0xFF), none⟩ := by decide
theorem decode_out_nullary : entryOf (decode nullaryParams ⟨some "OUT", [], none⟩) = some ⟨.out .nullary, none⟩ := by decide
theorem decode_hlt : entryOf (decode .default ⟨some "HLT", [], none⟩) = some ⟨.hlt, none⟩ := by decide

/-- R73: 21 rows, MOV at index 0, OUT at 19, HLT at 20. -/
theorem test_table_indices :
    (opcodeTable .default).length = 21 ∧ ((opcodeTable .default)[0]?).map Row.mnemonic = some "MOV" ∧
      ((opcodeTable .default)[19]?).map Row.mnemonic = some "OUT" ∧
      ((opcodeTable .default)[20]?).map Row.mnemonic = some "HLT" := by decide

/-- R75, R81: no two rows share a mnemonic. -/
theorem test_table_rows_differ : ((opcodeTable .default).map Row.mnemonic).Nodup := by decide

/-! ## Decoding whole lines (spec/95 section 2.5, P2) -/

theorem line_with_label : lineEntry .default "LOOP: ADI 02" = some ⟨.adi 0x02, some "LOOP"⟩ := by decide
theorem line_extra_blanks : lineEntry .default "  MVI   A 05 " = some ⟨.mvi (.gp .A) 0x05, none⟩ := by decide
/-- V113. -/
theorem line_suffix : lineEntry .default "MVI A 0FH" = some ⟨.mvi (.gp .A) 0x0F, none⟩ := by decide
/-- V115. -/
theorem line_any_target : lineEntry .default "JZ anything" = some ⟨.jz "anything", none⟩ := by decide
/-- V16. -/
theorem line_short_literal : lineEntry .default "LXI B 5" = some ⟨.lxi .B 0x0005, none⟩ := by decide
/-- R274. -/
theorem line_meta_commands :
    readLine "help" = .command .help ∧ readLine " inspect " = .command .inspect ∧ readLine "quit" = .command .quit := by
  decide
/-- V94. -/
theorem line_out_needs_port : lineError "OUT" = some (.arity "OUT" 1 0) := by decide
/-- V100 to V103. -/
theorem line_unknown_opcode :
    lineError "FOO A" = some (.unknownOpcode (some "FOO")) ∧ lineError "JMP X" = some (.unknownOpcode (some "JMP")) ∧
      lineError "mov A B" = some (.unknownOpcode (some "mov")) ∧ lineError "L9:" = some (.unknownOpcode none) := by decide
/-- V104, V105, V111. -/
theorem line_arity :
    lineError "MOV A" = some (.arity "MOV" 2 1) ∧ lineError "HLT A" = some (.arity "HLT" 0 1) ∧
      lineError "MOV X" = some (.arity "MOV" 2 1) := by decide
/-- V106 to V110. -/
theorem line_constraint :
    lineError "MOV A X" = some (.constraint "MOV" 1 "X") ∧ lineError "LDAX A" = some (.constraint "LDAX" 0 "A") ∧
      lineError "INX C" = some (.constraint "INX" 0 "C") ∧ lineError "LXI SP 1234" = some (.constraint "LXI" 0 "SP") ∧
      lineError "MOV a B" = some (.constraint "MOV" 0 "a") := by decide
/-- V112, V114, and R84: a literal has a digit. -/
theorem line_literal :
    lineError "MVI A 1FF" = some (.literal "1FF") ∧ lineError "LXI H 10000" = some (.literal "10000") ∧
      lineError "ADI H" = some (.literal "H") ∧ lineError "ADI 0x1" = some (.literal "0x1") := by decide
/-- R80: a token with two colons defines no label. -/
theorem line_two_colons : lineError "A:B: HLT" = some (.unknownOpcode (some "A:B:")) := by decide
/-- R270: E8 comes before E2 and E3. -/
theorem line_priority :
    lineError "MVI X 1FF" = some (.literal "1FF") ∧ lineError "ADI 1FF 00" = some (.literal "1FF") := by decide

/-! ## Data transfer (spec/95 section 2.1) -/

/-- R100: A = 12, `MOV B A`. -/
theorem test_mov : regsAfter (.mov (.gp .B) (.gp .A)) (start { RegFile.zero with A := 0x12 }) =
    some { RegFile.zero with A := 0x12, B := 0x12 } := by decide
/-- V6: `MOV H M` reads the old H:L. -/
theorem test_mov_from_memory :
    regsAfter (.mov (.gp .H) .M) (start { RegFile.zero with H := 0x20, L := 0x50 } .reset [(0x2050, 0x33)]) =
      some { RegFile.zero with H := 0x33, L := 0x50 } := by decide
/-- V9. -/
theorem test_mvi_memory :
    memAfter (.mvi .M 0x2A) (start { RegFile.zero with H := 0x20, L := 0x50 }) = some [(0x2050, 0x2A)] := by decide
/-- V8: `MVI A 00` leaves Z. -/
theorem test_mvi_keeps_zero_flag :
    aluAfter (.mvi (.gp .A) 0x00) (start { RegFile.zero with A := 0x07 } ⟨false, false, true, false⟩) =
      some (0x00, false, false, true) := by decide
/-- V10. -/
theorem test_ldax :
    regsAfter (.ldax .D) (start { RegFile.zero with D := 0x20, E := 0x50 } .reset [(0x2050, 0x2A)]) =
      some { RegFile.zero with A := 0x2A, D := 0x20, E := 0x50 } := by decide
/-- V11. -/
theorem test_ldax_unwritten :
    regsAfter (.ldax .B) (start { RegFile.zero with A := 0x99, B := 0x12, C := 0x34 }) =
      some { RegFile.zero with B := 0x12, C := 0x34 } := by decide
/-- V13. -/
theorem test_stax :
    memAfter (.stax .B) (start { RegFile.zero with A := 0x2F, B := 0x30 }) = some [(0x3000, 0x2F)] := by decide
/-- V14; the list stays in address order. -/
theorem test_stax_address_zero :
    memAfter (.stax .B) (start { RegFile.zero with A := 0x77 } .reset [(0x2050, 0x2A)]) =
      some [(0x0000, 0x77), (0x2050, 0x2A)] := by decide
/-- W4. -/
theorem test_lxi : regsAfter (.lxi .H 0x3344) (start) = some { RegFile.zero with H := 0x33, L := 0x44 } := by decide
/-- V17. -/
theorem test_lxi_top : regsAfter (.lxi .D 0xFFFF) (start) = some { RegFile.zero with D := 0xFF, E := 0xFF } := by decide

/-! ## Arithmetic (spec/95 section 2.2) -/

/-- W1. -/
theorem test_add_wraps :
    aluAfter (.add (.gp .B)) (start { RegFile.zero with A := 0xFF, B := 0x01 }) = some (0x00, true, false, false) := by
  decide
/-- V23: S is not bit 7. -/
theorem test_add_sign :
    aluAfter (.add (.gp .B)) (start { RegFile.zero with A := 0x7F, B := 0x01 }) = some (0x80, false, false, false) := by
  decide
/-- V29: every flag is written. -/
theorem test_adi_clears_flags :
    aluAfter (.adi 0x00) (start { RegFile.zero with A := 0x05 } ⟨true, false, true, true⟩) =
      some (0x05, false, false, false) := by decide
/-- V28. -/
theorem test_adi_zero : aluAfter (.adi 0x00) (start) = some (0x00, false, false, true) := by decide
/-- V31: the absolute difference. -/
theorem test_sub_negative :
    aluAfter (.sub (.gp .B)) (start { RegFile.zero with A := 0x30, B := 0x40 }) = some (0x10, true, true, false) := by decide
/-- V32: source and destination are the same register. -/
theorem test_sub_self :
    aluAfter (.sub (.gp .A)) (start { RegFile.zero with A := 0x55 }) = some (0x00, false, false, true) := by decide
/-- W2. -/
theorem test_sui_equal : aluAfter (.sui 0x10) (start { RegFile.zero with A := 0x10 }) = some (0x00, false, false, true) := by
  decide
/-- W3. -/
theorem test_sui_negative :
    aluAfter (.sui 0x02) (start { RegFile.zero with A := 0x01 }) = some (0x01, true, true, false) := by decide
/-- V40: A is not written. -/
theorem test_cmp_less :
    aluAfter (.cmp (.gp .B)) (start { RegFile.zero with A := 0x05, B := 0x07 }) = some (0x05, true, true, false) := by decide
/-- V41. -/
theorem test_cmp_greater :
    aluAfter (.cmp (.gp .B)) (start { RegFile.zero with A := 0x07, B := 0x05 }) = some (0x07, false, false, false) := by
  decide
/-- V44. -/
theorem test_cpi_less : aluAfter (.cpi 0x01) (start) = some (0x00, true, true, false) := by decide
/-- V43. -/
theorem test_cpi_equal : aluAfter (.cpi 0x05) (start { RegFile.zero with A := 0x05 }) = some (0x05, false, false, true) := by
  decide
/-- V47: Z is 0 after a wrap to 00. -/
theorem test_inr_wraps :
    aluBAfter (.inr (.gp .B)) (start { RegFile.zero with B := 0xFF }) = some (0x00, true, false, false) := by decide
/-- V60 and V61, `INR_FLAGS = Unchanged`. -/
theorem test_inr_flags_unchanged :
    let p : Params := { Params.default with inrFlags := .unchanged }
    aluBAfter (.inr (.gp .B)) { start { RegFile.zero with B := 0xFF } ⟨false, false, true, false⟩ with params := p } =
        some (0x00, false, false, true) ∧
      aluBAfter (.inr (.gp .B)) { start { RegFile.zero with B := 0x41 } ⟨true, false, true, true⟩ with params := p } =
        some (0x42, true, true, true) := by decide
/-- V52 and V62: DCR of 00 under `Abs` and under `Wrap`. -/
theorem test_dcr_zero :
    aluBAfter (.dcr (.gp .B)) (start) = some (0x01, true, true, false) ∧
      aluBAfter (.dcr (.gp .B)) { start with params := { Params.default with dcrZero := .wrap } } =
        some (0xFF, true, true, false) := by decide
/-- V53: `DCR M` on an unwritten cell. -/
theorem test_dcr_memory :
    memAfter (.dcr .M) (start { RegFile.zero with H := 0x20 }) = some [(0x2000, 0x01)] := by decide
/-- V55: the carry goes into the first register. -/
theorem test_inx_carries :
    regsAfter (.inx .H) (start { RegFile.zero with L := 0xFF }) = some { RegFile.zero with H := 0x01 } := by decide
/-- V56 and V63: INX of FFFF under `Reject` and under `Wrap`. -/
theorem test_inx_top :
    let s := start { RegFile.zero with D := 0xFF, E := 0xFF }
    (nextOf (exec (.inx .D) s)).map (fun t => (t.regs.D, t.regs.E, t.errors, t.pc)) =
        some (0xFF, 0xFF, [.pairOverflow .D], .index 4) ∧
      (nextOf (exec (.inx .D) { s with params := { Params.default with inxAtFFFF := .wrap } })).map
        (fun t => (t.regs.D, t.regs.E, t.errors, t.flags)) = some (0x00, 0x00, [], Flags.reset) := by decide
/-- V57: the borrow comes from the first register. -/
theorem test_dcx_borrows :
    regsAfter (.dcx .D) (start { RegFile.zero with D := 0x01 }) = some { RegFile.zero with E := 0xFF } := by decide
/-- W7, V59. -/
theorem test_dcx_underflow :
    (nextOf (exec (.dcx .B) (start))).map (fun t => (t.regs, t.flags)) = some (RegFile.zero, Flags.reset) ∧
      (nextOf (exec (.dcx .B) (start))).map (fun t => (t.errors, t.pc)) = some ([.pairUnderflow .B], .index 4) := by decide

/-! ## Control transfer (spec/95 section 2.3) -/

/-- V70, V71. -/
theorem test_jz :
    engineAfter (.jz "L1") (startL1 ⟨false, false, true, false⟩) = some (.index 0, .running) ∧
      engineAfter (.jz "L1") (startL1 .reset) = some (.index 4, .running) := by decide
/-- V72, V73. -/
theorem test_jnz :
    engineAfter (.jnz "L1") (startL1 .reset) = some (.index 0, .running) ∧
      engineAfter (.jnz "L1") (startL1 ⟨false, false, true, false⟩) = some (.index 4, .running) := by decide
/-- V81: a target that looks like an address is a label. -/
theorem test_jnz_number : engineAfter (.jnz "2050") (start) = some (.mostRecent, .suspended "2050") := by decide
/-- V74, V80. -/
theorem test_jc :
    engineAfter (.jc "L1") (startL1 ⟨true, false, false, false⟩) = some (.index 0, .running) ∧
      engineAfter (.jc "L1") (startL1 ⟨false, false, true, true⟩) = some (.index 4, .running) := by decide
/-- V76, V77. -/
theorem test_jnc :
    engineAfter (.jnc "L1") (startL1 .reset) = some (.index 0, .running) ∧
      engineAfter (.jnc "L1") (startL1 ⟨true, false, false, false⟩) = some (.index 4, .running) := by decide
/-- V78, V79. -/
theorem test_jnc_absent :
    (nextOf (exec (.jnc "L1") (start))).map (fun t => (t.pc, t.mode, t.replies)) =
        some (.mostRecent, .suspended "L1", [.suspended "L1"]) ∧
      engineAfter (.jnc "L1") (start .zero ⟨true, false, false, false⟩) = some (.index 4, .running) := by decide

/-! ## Output and halt (spec/95 section 2.4) -/

/-- V90. -/
theorem test_out :
    (nextOf (exec (.out (.port 0x01)) (start { RegFile.zero with A := 0x05 }))).map State.display =
      some [⟨.port 0x01, 0x05⟩] := by decide
/-- V93: the value is 05, whatever the tag. -/
theorem test_out_nullary :
    (nextOf (exec (.out .nullary) { start { RegFile.zero with A := 0x05 } with params := nullaryParams })).map
      (fun t => t.display.map DisplayEvent.value) = some [0x05] := by decide
/-- V92. -/
theorem test_hlt : nextOf (exec .hlt (start)) = some { start with pc := .index 4 } := by decide

/-! ## The engine and the host, one step each -/

/-- The state after reset with one text line waiting. -/
def withLine (text : String) (s : State := .reset) : State := { s with input := [.line text] }

/-- R237, R229: a line is appended and its walk starts at it. -/
theorem test_line_starts_walk :
    (nextOf (step (withLine "X: JNZ X"))).map (fun t => (t.log, t.labels, t.pc, t.replies)) =
      some ([⟨.jnz "X", some "X"⟩], [("X", 0)], .index 0, [.appended 0]) := by decide
/-- V116: E4. -/
theorem test_duplicate_label :
    (nextOf (step (withLine "L1: MVI A 01" { State.reset with labels := [("L1", 3)] }))).map
      (fun t => (t.errors, t.log, t.pc)) = some ([.duplicateLabel "L1" 3], [], .mostRecent) := by decide
/-- W6, the second line: an unrelated label does not resume. -/
theorem test_unrelated_label :
    (nextOf (step (withLine "A1: MVI B 01" { State.reset with log := [⟨.jnz "FWD", none⟩], mode := .suspended "FWD" }))).map
      (fun t => (t.mode, t.labels, t.regs.B, t.replies)) =
        some (.suspended "FWD", [("A1", 1)], 0x00, [.appended 1, .suspended "FWD"]) := by decide
/-- W6, the third line: the awaited label resumes, and the walk starts at it. -/
theorem test_awaited_label :
    (nextOf (step (withLine "FWD: MVI C 03" { State.reset with log := [⟨.jnz "FWD", none⟩], mode := .suspended "FWD" }))).map
      (fun t => (t.mode, t.labels, t.regs.C, t.pc)) = some (.running, [("FWD", 1)], 0x00, .index 1) := by decide
/-- R229: the end of a walk. -/
theorem test_walk_ends :
    (nextOf (step { State.reset with pc := .index 0 })).map (fun t => (t.pc, t.replies)) = some (.mostRecent, [.done]) := by
  decide
/-- R273. -/
theorem test_inspect :
    (nextOf (step { State.reset with input := [.inspect], mem := [(0x3344, 0x7E)] })).map State.replies =
      some [.dumped ⟨.zero, .reset, [(0x3344, 0x7E)]⟩] := by decide
/-- R275: registers not named take their reset values, cells not listed read 00. -/
theorem test_load :
    ((start { RegFile.zero with A := 0x11, B := 0x22 } .reset [(0x0001, 0x05)]).load
      ⟨[(.B, 0x33)], [(0xFFFF, 0x01), (0x2050, 0x2A)]⟩).regs = { RegFile.zero with B := 0x33 } ∧
    ((start { RegFile.zero with A := 0x11, B := 0x22 } .reset [(0x0001, 0x05)]).load
      ⟨[(.B, 0x33)], [(0xFFFF, 0x01), (0x2050, 0x2A)]⟩).mem = [(0x2050, 0x2A), (0xFFFF, 0x01)] := by decide
/-- R236: after `quit` nothing more comes. -/
theorem test_quit : (nextOf (step { State.reset with input := [.quit, .line "HLT"] })).map State.input = some [] := by decide

/-! ## The host's words (log entry 2): the characters of the line, the first in bits 7..0 -/

/-- "HLT" is 48H, 4CH, 54H. -/
theorem word_hlt : decodeTableWord 24 0x544C48 = some .hlt := by decide
/-- "ADI 7F" is 41H, 44H, 49H, 20H, 37H, 46H. -/
theorem word_adi : decodeTableWord 48 0x463720494441 = some (.adi 0x7F) := by decide
/-- "MOV" alone: operand words of zeros. -/
theorem word_mov_padded : decodeTableWord 24 0x564F4D = some (.mov (.gp .A) (.gp .A)) := by decide
/-- "NOP" is no opcode of CORE (R82). -/
theorem word_unknown : decodeTableWord 24 0x504F4E = none := by decide
/-- The next step runs exactly the word. -/
theorem word_runs :
    nextOf (step (State.reset.withFetchWord 24 0x544C48)) =
      some { State.reset with log := [⟨.hlt, none⟩], pc := .index 1 } := by decide

/-! ## Witnesses: for each statement of Certificates/Slice0/Obligations.lean with hypotheses, values that meet them -/

/-- In the middle of a walk over a loop, with memory and a request waiting. -/
def walking : State :=
  { State.reset with
    mem := [(0x2050, 0x33)]
    log := [⟨.adi 0x02, some "LOOP"⟩, ⟨.jnz "LOOP", none⟩]
    labels := [("LOOP", 0)]
    pc := .index 1
    input := [.line "HLT"] }

/-- Suspended, with a line waiting that carries another label. -/
def suspended : State :=
  { State.reset with log := [⟨.jnz "FWD", none⟩], mode := .suspended "FWD", input := [.line "A1: MVI B 01"] }

theorem walking_inv : Inv walking :=
  ⟨by decide, by decide, by decide, by decide, by show 1 ≤ 2; decide⟩

theorem suspended_inv : Inv suspended :=
  ⟨by decide, by decide, by decide, by decide, by exact ⟨rfl, rfl⟩⟩

theorem walking_coherent : FlagsCoherent walking.flags := ⟨rfl, by decide, by decide⟩

/-- DecodeInvertsEncode, ReadLineInvertsRenderLine: both forms of OUT, a jump, a label. -/
theorem witness_encoding :
    Entry.wellFormed .default ⟨.out (.port 0xFF), some "L1"⟩ = true ∧ Entry.wellFormed nullaryParams ⟨.out .nullary, none⟩ = true ∧
      Entry.wellFormed .default ⟨.jz "L1:", none⟩ = true := by decide

/-- DecodedLineIsWellFormed, DecodeKeepsMnemonicArityAndLabel. -/
theorem witness_decoded_line :
    readLine "L1: JZ 2050" = .record ⟨some "JZ", ["2050"], some "L1"⟩ ∧
      entryOf (decode .default ⟨some "JZ", ["2050"], some "L1"⟩) = some ⟨.jz "2050", some "L1"⟩ := by decide

/-- UnknownOpcodeIsRejected: another mnemonic, another case, no opcode. -/
theorem witness_unknownOpcode :
    ∀ op ∈ [some "JMP", some "mov", none], ∀ m ∈ (opcodeTable .default).map Row.mnemonic, op ≠ some m := by decide

/-- ArityMismatchIsRejected, the E2 clause (V104, V105): too few and too many, with no literal position that fails. -/
theorem witness_arity :
    Instr.wellFormed .default (.mov .M .M) = true ∧ (["A"] : List Token).length ≠ (Instr.mov .M .M).argTokens.length ∧
      (∃ row, lookupRow .default "MOV" = some row ∧ ∀ k t, ¬ BadLiteralAt row ["A"] k t) ∧
      Instr.wellFormed .default .hlt = true ∧ (["A"] : List Token).length ≠ Instr.hlt.argTokens.length ∧
      (∃ row, lookupRow .default "HLT" = some row ∧ ∀ k t, ¬ BadLiteralAt row ["A"] k t) := by
  refine ⟨rfl, by decide, ⟨_, rfl, ?_⟩, rfl, by decide, ⟨_, rfl, ?_⟩⟩
  · rintro (_ | _ | k) t ⟨_, q, hq, h⟩
    · cases hq; simp at h
    · cases hq; simp at h
    · cases hq
  · rintro k t ⟨_, q, hq, _⟩
    cases hq

/-- ArityMismatchIsRejected, the E8 clause (`line_priority`): `ADI 1FF 00`. -/
theorem witness_arity_literal :
    Instr.wellFormed .default (.adi 0) = true ∧ (["1FF", "00"] : List Token).length ≠ (Instr.adi 0).argTokens.length ∧
      ∃ row, lookupRow .default "ADI" = some row ∧ BadLiteralAt row ["1FF", "00"] 0 "1FF" ∧
        ∀ j u, j < 0 → ¬ BadLiteralAt row ["1FF", "00"] j u :=
  ⟨rfl, by decide, _, rfl, ⟨rfl, _, rfl, .inl ⟨rfl, by decide⟩⟩, fun j u h => absurd h (by omega)⟩

/-- ConstraintViolationIsRejected, each clause. -/
theorem witness_constraint :
    "X" ∉ (["A", "B", "C", "D", "E", "H", "L", "M"] : List Token) ∧ "M" ∈ (["A", "B", "C", "D", "E", "H", "L", "M"] : List Token) ∧
      "A" ∉ (["B", "D", "H"] : List Token) ∧ "C" ∉ (["B", "D", "H"] : List Token) ∧ readByte "FF" ≠ none ∧
      readWord "FFFF" ≠ none := by decide

/-- BadLiteralIsRefused, each clause at the edge of its range. -/
theorem witness_badLiteral :
    readByte "100" = none ∧ readByte "FF" ≠ none ∧ readWord "10000" = none ∧ readWord "FFFF" ≠ none ∧ readWord "G" = none ∧
      Params.default.outForm = .port := by decide

/-- HexLiteralsReadAsUnsigned, the clauses with a premise, at the edges: 0100 and 100 for a byte, 10000H for a word. -/
theorem witness_wideLiteral :
    256 ≤ (0x0100 : Word).toNat ∧ wordToken 0x0100 = "0100" ∧ HexLiteral "100" 0x100 ∧ 0xFF < 0x100 ∧
      HexLiteral "10000H" 0x10000 ∧ 0xFFFF < 0x10000 := by
  refine ⟨by decide, by decide, ⟨['1', '0', '0'], ⟨by simp, [1, 0, 0], ?_, by decide⟩, .inl (by decide)⟩, by decide,
    ⟨['1', '0', '0', '0', '0'], ⟨by simp, [1, 0, 0, 0, 0], ?_, by decide⟩, .inr (by decide)⟩, by decide⟩
  · exact .cons (.inl rfl) (.cons (.inl rfl) (.cons (.inl rfl) .nil))
  · exact .cons (.inl rfl) (.cons (.inl rfl) (.cons (.inl rfl) (.cons (.inl rfl) (.cons (.inl rfl) .nil))))

/-- R79, V16: short literals and leading zeros; R84: a literal is nothing but digits and one suffix. -/
theorem test_literals :
    readWord "5" = some 0x0005 ∧ readByte "0005H" = some 0x05 ∧ readWord "0FFFF" = some 0xFFFF ∧ readWord "10000" = none ∧
      readByte "" = none ∧ readByte "5HH" = none ∧ readByte "-5" = none := by decide

/-- MemoryReadsLastWrite, LoadSetsExactlyWhatItNames: named and not named. -/
theorem witness_load :
    let x : Snapshot := ⟨[(.B, 0x33)], [(0xFFFF, 0x01), (0x0000, 0x2A)]⟩
    (x.registers.map Prod.fst).Nodup ∧ (x.memory.map Prod.fst).Nodup ∧ (.B, 0x33) ∈ x.registers ∧
      Reg.A ∉ x.registers.map Prod.fst ∧ (0xFFFF, 0x01) ∈ x.memory ∧ 0x0001 ∉ x.memory.map Prod.fst := by decide

/-- MovToItselfChangesNothing, LoadOfSaveRestoresRegistersAndMemory. -/
theorem witness_canonicalMemory : Memory.wf walking.mem ∧ Memory.wf [(0, 1), (0xFFFF, 0xFF)] := by decide

/-- AdditionFollowsAddPolicy, SubtractionFollowsSubtractPolicy, ComparisonWritesOnlyFlags: the register form (M) and the
immediate form. -/
theorem witness_operand :
    let s := start { RegFile.zero with H := 0x20, L := 0x50 } .reset [(0x2050, 0xFF)]
    s.reg .M = 0xFF ∧
    ((∃ src, Instr.add .M = .add src ∧ s.reg .M = s.reg src) ∨ Instr.add .M = .adi (s.reg .M)) ∧
    ((∃ src, Instr.adi 0x01 = .add src ∧ 0x01 = s.reg src) ∨ Instr.adi 0x01 = .adi 0x01) ∧
    ((∃ src, Instr.sub .M = .sub src ∧ s.reg .M = s.reg src) ∨ Instr.sub .M = .sui (s.reg .M)) ∧
    ((∃ src, Instr.sui 0x01 = .sub src ∧ 0x01 = s.reg src) ∨ Instr.sui 0x01 = .sui 0x01) ∧
    ((∃ src, Instr.cmp .M = .cmp src ∧ s.reg .M = s.reg src) ∨ Instr.cmp .M = .cpi (s.reg .M)) ∧
    ((∃ src, Instr.cpi 0x01 = .cmp src ∧ 0x01 = s.reg src) ∨ Instr.cpi 0x01 = .cpi 0x01) :=
  ⟨by decide, .inl ⟨_, rfl, rfl⟩, .inr rfl, .inl ⟨_, rfl, rfl⟩, .inr rfl, .inl ⟨_, rfl, rfl⟩, .inr rfl⟩

/-- InrIncrements: both values of `INR_FLAGS`, at 0xFF. -/
theorem witness_inr :
    let s := start { RegFile.zero with B := 0xFF }
    s.params.inrFlags = .addPolicy ∧ s.reg (.gp .B) = 0xFF ∧
      { s with params := { Params.default with inrFlags := .unchanged } }.params.inrFlags = .unchanged := by decide

/-- DcrDecrements: not 00, and 00 under each value of `DCR_ZERO`. -/
theorem witness_dcr :
    (start { RegFile.zero with B := 0x01 }).reg (.gp .B) ≠ 0x00 ∧ (start).reg (.gp .B) = 0x00 ∧
      (start).params.dcrZero = .abs ∧
      { start with params := { Params.default with dcrZero := .wrap } }.params.dcrZero = .wrap := by decide

/-- InxIncrementsPair: below the top, and at the top under each value of `INX_AT_FFFF`. -/
theorem witness_inx :
    let s := start { RegFile.zero with D := 0xFF, E := 0xFF }
    (start { RegFile.zero with D := 0xFF, E := 0xFE }).regs.pair .D ≠ 0xFFFF ∧ s.regs.pair .D = 0xFFFF ∧
      s.params.inxAtFFFF = .reject ∧
      { s with params := { Params.default with inxAtFFFF := .wrap } }.params.inxAtFFFF = .wrap := by decide

/-- DcxDecrementsPair: 0001 and 0000. -/
theorem witness_dcx :
    (start { RegFile.zero with C := 0x01 }).regs.pair .B ≠ 0x0000 ∧ (start).regs.pair .B = 0x0000 := by decide

/-- ConditionalJumpsFollowTheirFlag: taken to a present and to an absent label, and not taken. -/
theorem witness_jumps :
    (startL1 ⟨true, false, true, false⟩).flags.z = true ∧ (startL1 ⟨true, false, true, false⟩).flags.cy = true ∧
      (startL1 .reset).flags.z = false ∧ (startL1 .reset).flags.cy = false ∧
      LabelIndex.find (startL1 .reset).labels "L1" = some 0 ∧ LabelIndex.find (startL1 .reset).labels "L2" = none := by decide

/-- OutEmitsAccumulator, the clause about the port. -/
theorem witness_out : ∃ b, OutOperand.port 0xFF = .port b := ⟨_, rfl⟩

/-- OnlyFlagWritersWriteFlags, OnlyOutDrivesTheDisplay, OnlyJumpsRedirectTheCursor, OnlyStoresWriteMemory,
SignAndAuxiliaryCarryAreNotRead: an instruction that completes and is none of the writers; and a store, seen beside its
address. -/
theorem witness_frames :
    (nextOf (exec (.stax .B) walking)).isSome = true ∧ writesFlags walking.params (.stax .B) = false ∧
      isOut (.stax .B) = false ∧ isJump (.stax .B) = false ∧ storeAddress (.stax .B) walking = some 0x0000 ∧
      (1 : Nat) ≠ (0x0000 : Word).toNat ∧ storeAddress (.out (.port 0)) walking = none ∧
      writesFlags { Params.default with inrFlags := .unchanged } (.inr .M) = false ∧
      writesFlags walking.params (.dcr .M) = true ∧ (nextOf (exec (.dcr .M) walking)).isSome = true := by decide

/-- StepRunsTheEntryAtTheCursor, WalksAreAtomicForTheHost, AuxiliaryCarryStaysFalse, LogAndStreamsOnlyGrow,
StepKeepsTheInvariant, StepKeepsFlagsCoherent, InvariantStepsNeverStop, LabelsNameTheEntriesThatCarryThem: a step of a walk
(`walking_inv` and `walking_coherent` are the other premises). -/
theorem witness_walk :
    walking.mode = .running ∧ walking.pc = .index 1 ∧ walking.log[1]? = some ⟨.jnz "LOOP", none⟩ ∧
      (nextOf (step walking)).isSome = true ∧ LabelIndex.find walking.labels "LOOP" = some 0 := by decide

/-- StepRunsTheDecodedWord: "HLT" and, with a label, "A:HLT" does not decode while "A: HLT" does. -/
theorem witness_word :
    entryOf (decode State.reset.params (recordOfWord State.reset.params 24 0x544C48)) = some ⟨.hlt, none⟩ ∧
      entryOf (decode State.reset.params (recordOfWord State.reset.params 48 0x544C48203A41)) = some ⟨.hlt, some "A"⟩ := by
  decide

/-- WalkEndsAtTheEndOfTheLog. -/
theorem witness_walkEnd :
    { walking with pc := .index 2 }.mode = .running ∧
      { walking with pc := .index 2 }.pc = .index { walking with pc := .index 2 }.log.length := by decide

/-- CoreWaitsForTheHost, both ways to be between walks. -/
theorem witness_waiting :
    State.reset.pc = .mostRecent ∧ State.reset.input = [] ∧ { suspended with input := [] }.mode ≠ .running ∧
      { suspended with input := [] }.input = [] := by decide

/-- AcceptedLineStartsAWalkAtItself: a new label beside one already defined. -/
theorem witness_acceptedLine :
    let s := { walking with pc := .mostRecent, input := [.line "L2: HLT"] }
    s.mode = .running ∧ s.pc = .mostRecent ∧ s.input = .line "L2: HLT" :: [] ∧
      readLine "L2: HLT" = .record ⟨some "HLT", [], some "L2"⟩ ∧
      entryOf (decode s.params ⟨some "HLT", [], some "L2"⟩) = some ⟨.hlt, some "L2"⟩ ∧
      LabelIndex.find s.labels "L2" = none := by decide

/-- RejectedLineChangesNothing, E4 (W5): a line that decodes and carries a label already defined. -/
theorem witness_duplicateLine :
    let s := { walking with pc := .mostRecent, input := [.line "LOOP: MVI A 02"] }
    s.pc = .mostRecent ∧ s.input = .line "LOOP: MVI A 02" :: [] ∧
      readLine "LOOP: MVI A 02" = .record ⟨some "MVI", ["A", "02"], some "LOOP"⟩ ∧
      entryOf (decode s.params ⟨some "MVI", ["A", "02"], some "LOOP"⟩) = some ⟨.mvi (.gp .A) 0x02, some "LOOP"⟩ ∧
      LabelIndex.find s.labels "LOOP" = some 0 := by decide

/-- RejectedLineChangesNothing, a line that does not decode. -/
theorem witness_rejectedLine :
    { suspended with input := [.line "JMP X"] }.mode ≠ .running ∧
      { suspended with input := [.line "JMP X"] }.input = .line "JMP X" :: [] ∧
      readLine "JMP X" = .record ⟨some "JMP", ["X"], none⟩ ∧
      errorOf (decode .default ⟨some "JMP", ["X"], none⟩) = some (.unknownOpcode (some "JMP")) := by decide

/-- DuplicateLabelIsRejected. -/
theorem witness_duplicate :
    (⟨.hlt, some "LOOP"⟩ : Entry).label = some "LOOP" ∧ LabelIndex.find walking.labels "LOOP" = some 0 := by decide

/-- OnlyTheAwaitedLabelResumes, SuspendedEngineEvaluatesNothing: the awaited label, another label and none, all new. -/
theorem witness_suspended :
    suspended.mode = .suspended "FWD" ∧ suspended.input = [.line "A1: MVI B 01"] ∧ (nextOf (step suspended)).isSome = true ∧
      LabelIndex.find suspended.labels "FWD" = none ∧ LabelIndex.find suspended.labels "A1" = none ∧
      (⟨.hlt, some "FWD"⟩ : Entry).label = some "FWD" ∧ (⟨.hlt, none⟩ : Entry).label ≠ some "FWD" := by decide

/-- SuspendedEngineEvaluatesNothing: the waiting request is no snapshot load. -/
theorem witness_suspended_noLoad : ∀ x rest, suspended.input ≠ .load x :: rest := by
  intro x rest h
  cases h

/-- ExecuteNextWhileSuspendedOnlyChecks: the awaited label not defined (`suspended_inv`), and defined, in a state no run
reaches. -/
theorem witness_recheck :
    LabelIndex.find suspended.labels "FWD" = none ∧
      LabelIndex.find { suspended with labels := [("FWD", 0)] }.labels "FWD" = some 0 := by decide

/-- ExecuteNextOnEmptyLogIsIdle. -/
theorem witness_emptyLog : State.reset.mode = .running ∧ State.reset.log = [] := by decide

/-- SelfJumpRunsForever (V82). -/
theorem witness_selfJump :
    let s := { State.reset with log := [⟨.jnz "X", some "X"⟩], labels := [("X", 0)], pc := .index 0 }
    s.mode = .running ∧ s.pc = .index 0 ∧ s.log[0]? = some ⟨.jnz "X", some "X"⟩ ∧ LabelIndex.find s.labels "X" = some 0 ∧
      s.flags.z = false := by decide

/-- LoadSetsExactlyWhatItNames, LoadOfSaveRestoresRegistersAndMemory, MetaCommandsAndQuit: the requests, waiting between
walks and while suspended. -/
theorem witness_requests :
    TakesRequest { walking with pc := .mostRecent } ∧ TakesRequest suspended ∧
      { suspended with input := [.save] }.input = .save :: [] ∧
      { State.reset with input := [.load suspended.snapshot] }.input = .load suspended.snapshot :: [] ∧
      splitTokens " help" = ["help"] ∧ splitTokens "quit" = ["quit"] ∧ splitTokens "inspect " = ["inspect"] ∧
      { suspended with input := [.quit, .inspect] }.input = .quit :: [.inspect] :=
  ⟨.inr rfl, .inl (by decide), rfl, rfl, by decide, by decide, by decide, rfl⟩

/-- R274: a line `help` changes nothing, and a line `quit` drops what waits behind it. -/
theorem test_help_quit_lines :
    nextOf (step { suspended with input := [.line "help", .inspect] }) = some { suspended with input := [.inspect] } ∧
      nextOf (step { suspended with input := [.line "quit", .inspect] }) = some { suspended with input := [] } := by decide

/-- InspectAndSaveAreReadOnly. -/
theorem witness_readOnly :
    State.reset.pc = .mostRecent ∧ { State.reset with input := [.inspect] }.input = .inspect :: [] ∧
      isReadOnly .inspect = true ∧ { State.reset with input := [.save] }.input = .save :: [] ∧ isReadOnly .save = true := by
  decide

/-- The invariants hold right after reset. -/
theorem reset_inv : Inv State.reset := ⟨by decide, by decide, by decide, by decide, trivial⟩

end Sys2Proof.Tests
end

section
/-! PROOFS. The family `10_state.md`: M and the pairs as views of the register file (R23, R25, R26), and AC (R31). -/

namespace Sys2Proof.Machine

/-- R25: the number that a pair reads as. -/
theorem State.pair_toNat (s : State) (p : RegPair) :
    (s.pair p).toNat = (s.regs.get p.high).toNat * 256 + (s.regs.get p.low).toNat :=
  concatBytes_toNat _ _

/-- R23: the address of M, as a number. -/
theorem State.hl_toNat (s : State) : s.hl.toNat = s.regs.H.toNat * 256 + s.regs.L.toNat :=
  s.pair_toNat .H

/-- R23: reading M reads the memory at H:L as they are now. -/
theorem State.reg_M (s : State) : s.reg .M = Memory.read s.mem (s.regs.H.toNat * 256 + s.regs.L.toNat) := by
  rw [← s.hl_toNat]
  rfl

/-- R26: a pair write puts the two halves of the word into the registers of the pair and leaves every other register. -/
theorem State.setPair_splits (s : State) (p : RegPair) (w : Word) :
    ((s.setPair p w).regs.get p.high).toNat = w.toNat / 256 ∧
      ((s.setPair p w).regs.get p.low).toNat = w.toNat % 256 ∧
      SameRegsExcept [p.high, p.low] s (s.setPair p w) := by
  have hne : p.low ≠ p.high := (RegPair.high_ne_low p p).symm
  refine ⟨?high, ?low, ?others⟩
  case high => simp [RegFile.get_setPair, hne, highByte_toNat]
  case low => simp [RegFile.get_setPair, lowByte_toNat]
  case others =>
    intro r hr
    obtain ⟨hhigh, hlow⟩ : r ≠ p.high ∧ r ≠ p.low := by simpa using hr
    simp [RegFile.get_setPair, hhigh.symm, hlow.symm]

/-- R31: no instruction writes AC, whatever it requests of the engine. -/
theorem exec_keeps_ac {i : Instr} {s t : State} (h : exec i s = .next t) : t.flags.ac = s.flags.ac := by
  obtain ⟨u, q, hexec, frame, -, -⟩ := exec_cases i s
  obtain rfl : u.resolve q = t := Host.Outcome.next.inj (hexec.symm.trans h)
  rw [State.resolve_flags, frame.ac]

/-- R31: no step writes AC: not a request of the host, not an instruction, not the end of a walk. -/
theorem step_keeps_ac {s t : State} (h : step s = .next t) : t.flags.ac = s.flags.ac := by
  rcases step_cases s with ⟨-, hstep⟩ | ⟨k, e, -, -, -, hstep⟩ | ⟨-, -, hstep⟩ | ⟨k, -, -, -, hstep⟩ <;> rw [hstep] at h
  · obtain rfl := Host.Outcome.next.inj h
    rw [hostStep_flags]
  · exact exec_keeps_ac h
  · obtain rfl := Host.Outcome.next.inj h
    rfl
  · cases h

/-- Settles O11: `State.reg_M` in the state before and after each write, and the read-after-write law of memory. -/
theorem mNamesMemoryAtHL : Obligations.MNamesMemoryAtHL := by
  intro s v
  refine ⟨s.reg_M, fun a => ?_, s.setReg_M_regs v, (s.setReg (.gp .H) v).reg_M, (s.setReg (.gp .L) v).reg_M⟩
  rw [State.setReg_M_mem, Memory.read_write, State.hl_toNat]

/-- Settles O12: the reading and the writing of a pair, said once for all pairs, at each of the three. -/
theorem pairsAreTwoRegisters : Obligations.PairsAreTwoRegisters := by
  intro s w
  exact ⟨s.pair_toNat .B, s.pair_toNat .D, s.pair_toNat .H,
    s.setPair_splits .B w, s.setPair_splits .D w, s.setPair_splits .H w⟩

/-- Settles O31: AC is false in the reset state, and `step_keeps_ac`. -/
theorem auxiliaryCarryStaysFalse : Obligations.AuxiliaryCarryStaysFalse :=
  ⟨fun _ => rfl, fun _ _ => step_keeps_ac⟩

end Sys2Proof.Machine
end

section
/-! PROOFS. The family `20_memory.md`: what a read of memory gives after a write, a reset and a load (R51, R61, R275). -/

namespace Sys2Proof.Machine

/-- R51: a read after a write, at word addresses. -/
theorem State.memRead_memWrite (s : State) (a b : Word) (v : Byte) :
    (s.memWrite a v).memRead b = if b = a then v else s.memRead b := by
  have sameAddress : b.toNat = a.toNat ↔ b = a := BitVec.toNat_inj
  calc (s.memWrite a v).memRead b
      = if b.toNat = a.toNat then v else Memory.read s.mem b.toNat := Memory.read_write s.mem a.toNat b.toNat v
    _ = if b = a then v else s.memRead b := by simp only [sameAddress, State.memRead]

/-- R51: the reset memory lists no cell. -/
@[simp] theorem State.memRead_resetWith (p : Params) (a : Word) : (State.resetWith p).memRead a = 0x00 :=
  Memory.read_nil a.toNat

/-- R275: a load reads back each cell that the snapshot lists. -/
theorem State.memRead_load_of_listed (s : State) {x : Snapshot} (h : (x.memory.map Prod.fst).Nodup) {a : Word} {v : Byte}
    (ha : (a, v) ∈ x.memory) : (s.load x).memRead a = v :=
  (read_writes h []).1 a v ha

/-- R275: a load clears each cell that the snapshot does not list, whatever the session held there: `memoryOf` starts from
the empty memory (log entry 13). -/
theorem State.memRead_load_of_notListed (s : State) {x : Snapshot} (h : (x.memory.map Prod.fst).Nodup) {a : Word}
    (ha : a ∉ x.memory.map Prod.fst) : (s.load x).memRead a = 0x00 :=
  calc (s.load x).memRead a
      = Memory.read [] a.toNat := (read_writes h []).2 a ha
    _ = 0x00 := Memory.read_nil a.toNat

/-- Settles O13: the read laws for a write, for reset, and for the listed and the unlisted cells of a load. -/
theorem memoryReadsLastWrite : Obligations.MemoryReadsLastWrite :=
  ⟨State.memRead_memWrite, State.memRead_resetWith,
    fun s _ _ hkeys => ⟨fun _ => s.memRead_load_of_listed hkeys, s.memRead_load_of_notListed hkeys⟩⟩

end Sys2Proof.Machine
end

section
/-! PROOFS. The family `30_encoding.md`: an argument outside its enumerated set, the first such position first (R77). -/

namespace Sys2Proof

open Sys2Proof.Machine

/-! ## Tokens outside a set -/

/-- R22, R77: the register set has eight names. -/
theorem readReg_eq_none_iff {t : Token} : readReg t = none ↔ t ∉ ["A", "B", "C", "D", "E", "H", "L", "M"] := by
  simp [readReg, regTokens, @eq_comm _ t]

/-- R24, R77: the pair set has three names. -/
theorem readPair_eq_none_iff {t : Token} : readPair t = none ↔ t ∉ ["B", "D", "H"] := by
  simp [readPair, pairTokens, @eq_comm _ t]

/-- R71: a REG position admits exactly the register names. -/
theorem readOperand_reg_eq_none_iff {t : Token} :
    readOperand .reg t = none ↔ t ∉ ["A", "B", "C", "D", "E", "H", "L", "M"] :=
  Option.map_eq_none_iff.trans readReg_eq_none_iff

/-- R71: a PAIR position admits exactly the pair names. -/
theorem readOperand_pair_eq_none_iff {t : Token} : readOperand .pair t = none ↔ t ∉ ["B", "D", "H"] :=
  Option.map_eq_none_iff.trans readPair_eq_none_iff

/-! ## The two scans of an argument list, position by position -/

/-- E8 passes over a position whose token reads. -/
theorem firstBadLiteral_cons_of_reads {q : Param} {t : Token} (h : readOperand q.type t ≠ none) (qs : List Param)
    (ts : List Token) : firstBadLiteral (q :: qs) (t :: ts) = firstBadLiteral qs ts := by
  simp [firstBadLiteral, h]

/-- E8 passes over a position that takes no literal. -/
theorem firstBadLiteral_cons_of_not_literal {q : Param} (h : q.type.isLiteral = false) (t : Token) (qs : List Param)
    (ts : List Token) : firstBadLiteral (q :: qs) (t :: ts) = firstBadLiteral qs ts := by
  simp [firstBadLiteral, h]

/-- E3 stops at a token outside the enumerated set of its position. -/
theorem firstBadConstraint_cons_of_outside {q : Param} {t : Token} (hq : q.type.isLiteral = false)
    (ht : readOperand q.type t = none) (qs : List Param) (ts : List Token) (pos : Nat) :
    firstBadConstraint (q :: qs) (t :: ts) pos = some (pos, t) := by
  simp [firstBadConstraint, hq, ht]

/-- E3 passes over a position whose token reads. -/
theorem firstBadConstraint_cons_of_reads {q : Param} {t : Token} (h : readOperand q.type t ≠ none) (qs : List Param)
    (ts : List Token) (pos : Nat) : firstBadConstraint (q :: qs) (t :: ts) pos = firstBadConstraint qs ts (pos + 1) := by
  simp [firstBadConstraint, h]

/-! ## E3 -/

/-- R77, R270: what it takes for E3: the literals read, the count is right, and the scan of the enumerated sets stops. -/
theorem decode_of_firstBadConstraint {p : Params} {i : Instr} {args : List Token} {pos : Nat} {t : Token}
    (hE8 : firstBadLiteral (rowOf p i).params args = none) (hE2 : args.length = (rowOf p i).params.length)
    (hE3 : firstBadConstraint (rowOf p i).params args 0 = some (pos, t)) (label : Option Label) :
    decode p ⟨some i.mnemonic, args, label⟩ = .error (.constraint i.mnemonic pos t) := by
  have hrow := lookupRow_mnemonic p i
  have hc : checkArgs (rowOf p i) args = some (.constraint (rowOf p i).mnemonic pos t) := by
    simp [checkArgs, hE8, hE2, hE3]
  rw [decode_of_checkArgs hrow hc, (lookupRow_some hrow).2]

/-- E3 at the first position of a row, whose later arguments meet E8 and the count. -/
theorem decode_of_first_outside {p : Params} {i : Instr} {q : Param} {qs : List Param} {t : Token} {ts : List Token}
    (hrow : (rowOf p i).params = q :: qs) (hq : q.type.isLiteral = false) (ht : readOperand q.type t = none)
    (hE8 : firstBadLiteral qs ts = none) (hE2 : ts.length = qs.length) (label : Option Label) :
    decode p ⟨some i.mnemonic, t :: ts, label⟩ = .error (.constraint i.mnemonic 0 t) := by
  apply decode_of_firstBadConstraint <;> rw [hrow]
  · rw [firstBadLiteral_cons_of_not_literal hq, hE8]
  · simp [hE2]
  · exact firstBadConstraint_cons_of_outside hq ht qs ts 0

/-- R77: the second position of MOV, after a destination that reads. -/
theorem decode_mov_of_source_outside {t u : Token} (ht : readOperand .reg t ≠ none) (hu : readOperand .reg u = none)
    (p : Params) (label : Option Label) : decode p ⟨some "MOV", [t, u], label⟩ = .error (.constraint "MOV" 1 u) := by
  refine decode_of_firstBadConstraint (i := .mov .M .M) rfl rfl ?_ label
  calc firstBadConstraint [⟨"dst", .reg⟩, ⟨"src", .reg⟩] [t, u] 0
      = firstBadConstraint [⟨"src", .reg⟩] [u] 1 := firstBadConstraint_cons_of_reads ht _ _ 0
    _ = some (1, u) := firstBadConstraint_cons_of_outside rfl hu [] [] 1

/-- R77: the opcodes whose one operand is a register. -/
theorem decode_of_reg_outside {t : Token} (ht : readOperand .reg t = none) (p : Params) (label : Option Label) :
    ∀ m ∈ ["ADD", "SUB", "CMP", "INR", "DCR"], decode p ⟨some m, [t], label⟩ = .error (.constraint m 0 t) := by
  have single (i : Instr) (name : String) (hrow : (rowOf p i).params = [⟨name, .reg⟩]) :
      decode p ⟨some i.mnemonic, [t], label⟩ = .error (.constraint i.mnemonic 0 t) :=
    decode_of_first_outside hrow rfl ht rfl rfl label
  simp only [List.forall_mem_cons]
  exact ⟨single (.add .M) _ rfl, single (.sub .M) _ rfl, single (.cmp .M) _ rfl, single (.inr .M) _ rfl,
    single (.dcr .M) _ rfl, by simp⟩

/-- R77: the opcodes whose one operand is a pair. -/
theorem decode_of_pair_outside {t : Token} (ht : readOperand .pair t = none) (p : Params) (label : Option Label) :
    ∀ m ∈ ["LDAX", "STAX", "INX", "DCX"], decode p ⟨some m, [t], label⟩ = .error (.constraint m 0 t) := by
  have single (i : Instr) (hrow : (rowOf p i).params = [⟨"p", .pair⟩]) :
      decode p ⟨some i.mnemonic, [t], label⟩ = .error (.constraint i.mnemonic 0 t) :=
    decode_of_first_outside hrow rfl ht rfl rfl label
  simp only [List.forall_mem_cons]
  exact ⟨single (.ldax .B) rfl, single (.stax .B) rfl, single (.inx .B) rfl, single (.dcx .B) rfl, by simp⟩

/-- Settles O8: E3 at the first position of each row that begins with a register or a pair, a literal after it having been
read, and at the second position of MOV. -/
theorem constraintViolationIsRejected : Obligations.ConstraintViolationIsRejected := by
  intro p label t u regs pairs
  have outsideRegs {x : Token} (h : x ∉ regs) : readOperand .reg x = none := readOperand_reg_eq_none_iff.mpr h
  have insideRegs {x : Token} (h : x ∈ regs) : readOperand .reg x ≠ none := fun hx => readOperand_reg_eq_none_iff.mp hx h
  have outsidePairs {x : Token} (h : x ∉ pairs) : readOperand .pair x = none := readOperand_pair_eq_none_iff.mpr h
  refine ⟨fun ht => ?mov, fun ht hu => decode_mov_of_source_outside (insideRegs ht) (outsideRegs hu) p label,
    fun ht hu => ?mvi, fun ht hu => ?lxi, fun m hm ht => decode_of_reg_outside (outsideRegs ht) p label m hm,
    fun m hm ht => decode_of_pair_outside (outsidePairs ht) p label m hm⟩
  case mov => exact decode_of_first_outside (i := .mov .M .M) rfl rfl (outsideRegs ht) rfl rfl label
  case mvi =>
    have byteReads : readOperand .byte u ≠ none := by simpa [readOperand] using hu
    exact decode_of_first_outside (i := .mvi .M 0) rfl rfl (outsideRegs ht)
      (firstBadLiteral_cons_of_reads (q := ⟨"data", .byte⟩) byteReads [] []) rfl label
  case lxi =>
    have wordReads : readOperand .word u ≠ none := by simpa [readOperand] using hu
    exact decode_of_first_outside (i := .lxi .B 0) rfl rfl (outsidePairs ht)
      (firstBadLiteral_cons_of_reads (q := ⟨"data", .word⟩) wordReads [] []) rfl label

end Sys2Proof
end

section
/-! PROOFS. The family `41_arithmetic.md`: the two flag policies in the instructions that accumulate (R130, R131). -/

namespace Sys2Proof.Machine

/-- R132, R134, R238: what is left of a synthesis `y` once A and the flags have taken it and the engine has resolved no
request: the two writes, and the cursor one further. -/
theorem State.accumulate_resolve_none (s : State) (y : Synth) :
    let t := (s.accumulate y).resolve none
    t.regs.get .A = y.res ∧ FlagsWritten y.cy y.s y.z s t ∧ SameRegsExcept [.A] s t ∧ SameMemory s t ∧
      SameStreams s t ∧ Advanced s t := by
  refine ⟨rfl, ⟨rfl, rfl, rfl, rfl⟩, fun r hr => ?others, fun _ => rfl, ⟨rfl, rfl, rfl, rfl⟩,
    ⟨⟨rfl, rfl, rfl, rfl, rfl⟩, rfl⟩⟩
  case others =>
    have hA : Reg.A ≠ r := fun h => hr (by simp [h])
    simp [hA]

/-- R132, R133: both forms of an addition accumulate the add policy of the exact sum of A and the operand. -/
theorem exec_addition {s : State} {i : Instr} {b : Byte} (h : (∃ src, i = .add src ∧ b = s.reg src) ∨ i = .adi b) :
    exec i s = .next ((s.accumulate (addSynth (exactSum s.acc b))).resolve none) := by
  obtain ⟨src, rfl, rfl⟩ | rfl := h
  · rfl
  · rfl

/-- R134, R135: both forms of a subtraction accumulate the subtract policy of the exact difference of A and the operand. -/
theorem exec_subtraction {s : State} {i : Instr} {b : Byte} (h : (∃ src, i = .sub src ∧ b = s.reg src) ∨ i = .sui b) :
    exec i s = .next ((s.accumulate (subSynth (exactDiff s.acc b))).resolve none) := by
  obtain ⟨src, rfl, rfl⟩ | rfl := h
  · rfl
  · rfl

/-- Settles O20: an addition accumulates its synthesis, whose fields `addSynth_spec` gives for the exact sum. -/
theorem additionFollowsAddPolicy : Obligations.AdditionFollowsAddPolicy := by
  intro s i b hi sum
  obtain ⟨hres, hcy, hs, hz⟩ := addSynth_spec sum
  obtain ⟨hA, hflags, hframe⟩ := s.accumulate_resolve_none (addSynth sum)
  rw [hcy, hs, hz] at hflags
  exact ⟨_, exec_addition hi, (congrArg BitVec.toNat hA).trans hres, hflags, hframe⟩

/-- Settles O21: a subtraction accumulates its synthesis, whose fields `subSynth_spec` gives for the exact difference; two
bytes differ by less than 256, so the absolute value is stored whole. -/
theorem subtractionFollowsSubtractPolicy : Obligations.SubtractionFollowsSubtractPolicy := by
  intro s i b hi d
  obtain ⟨hres, hcy, hs, hz⟩ := subSynth_spec d (exactDiff_natAbs_lt s.acc b)
  obtain ⟨hA, hflags, hframe⟩ := s.accumulate_resolve_none (subSynth d)
  rw [hcy, hs, hz] at hflags
  exact ⟨_, exec_subtraction hi, (congrArg BitVec.toNat hA).trans hres, hflags, hframe⟩

end Sys2Proof.Machine
end

section
/-! PROOFS. The family `42_control_transfer.md`: the four conditional jumps, decoded and resolved (R180 to R183, R229, R231). -/

namespace Sys2Proof

open Sys2Proof.Machine

/-- R80: a row with one label position takes any token as its target; neither E8, E2 nor E3 looks at it. -/
theorem decode_of_label_row {p : Params} {i : Instr} {l : Label} {name : String}
    (hrow : (rowOf p i).params = [⟨name, .label⟩]) (hasm : assemble (rowOf p i).opcode [.label l] = some i)
    (own : Option Label) : decode p ⟨some i.mnemonic, [l], own⟩ = .ok ⟨i, own⟩ := by
  have checked : checkArgs (rowOf p i) [l] = none := by
    rw [checkArgs, hrow]
    rfl
  have operands : readOperands (rowOf p i).params [l] = [.label l] := by
    rw [hrow]
    rfl
  exact decode_of_assemble (lookupRow_mnemonic p i) checked (operands ▸ hasm)

namespace Machine

/-- R229: a request for a defined label moves the cursor to its index. -/
theorem State.resolve_of_present {s : State} {l : Label} {k : Nat} (h : LabelIndex.find s.labels l = some k) :
    s.resolve (some l) = { s with pc := .index k } := by
  simp [State.resolve, h]

/-- R231: a request for an undefined label suspends the engine. -/
theorem State.resolve_of_absent {s : State} {l : Label} (h : LabelIndex.find s.labels l = none) :
    s.resolve (some l) = s.suspend l := by
  simp [State.resolve, h]

/-- R229, R231: resolving the request of a conditional jump: the frame holds for every request, and the cursor, the mode and
the replies follow from the condition and the label. -/
theorem State.resolve_jumpIf (taken : Bool) (l : Label) (s : State) :
    JumpOutcome taken l s (s.resolve (jumpIf taken l)) where
  machine := ⟨s.resolve_regs _, s.resolve_flags _, s.resolve_mem _⟩
  params := s.resolve_params _
  log := s.resolve_log _
  labels := s.resolve_labels _
  input := s.resolve_input _
  display := s.resolve_display _
  errors := s.resolve_errors _
  freeDraws := s.resolve_freeDraws _
  notTaken := by
    rintro rfl
    exact ⟨rfl, rfl, rfl⟩
  present := by
    rintro rfl k hk
    have moved : s.resolve (jumpIf true l) = { s with pc := .index k } := State.resolve_of_present hk
    rw [moved]
    exact ⟨rfl, rfl, rfl⟩
  absent := by
    rintro rfl hl
    have suspended : s.resolve (jumpIf true l) = s.suspend l := State.resolve_of_absent hl
    rw [suspended]
    exact ⟨rfl, rfl, rfl⟩

/-- Settles O27: each jump decodes by its label row, and its handler is `jumpIf` on its own flag, resolved. -/
theorem conditionalJumpsFollowTheirFlag : Obligations.ConditionalJumpsFollowTheirFlag := by
  intro l s
  refine ⟨fun p own => ?decodes, ⟨_, rfl, s.resolve_jumpIf s.flags.z l⟩, ⟨_, rfl, s.resolve_jumpIf (!s.flags.z) l⟩,
    ⟨_, rfl, s.resolve_jumpIf s.flags.cy l⟩, ⟨_, rfl, s.resolve_jumpIf (!s.flags.cy) l⟩⟩
  case decodes =>
    exact ⟨decode_of_label_row (i := .jz l) rfl rfl own, decode_of_label_row (i := .jnz l) rfl rfl own,
      decode_of_label_row (i := .jc l) rfl rfl own, decode_of_label_row (i := .jnc l) rfl rfl own⟩

end Machine

end Sys2Proof
end

section
/-! PROOFS. The family `43_output_halt.md`: HLT, decoded and evaluated (R201). -/

namespace Sys2Proof

/-- R76, R270: a row without parameters admits the empty argument list only. With no position to scan, neither E8 nor E3 is
found, so any argument is E2. -/
theorem decode_of_nullary_row {p : Params} {i : Instr} (hrow : (rowOf p i).params = [])
    (hasm : assemble (rowOf p i).opcode [] = some i) (args : List Token) (label : Option Label) :
    decode p ⟨some i.mnemonic, args, label⟩ =
      if args = [] then .ok ⟨i, label⟩ else .error (.arity i.mnemonic 0 args.length) := by
  have found := lookupRow_mnemonic p i
  cases args with
  | nil =>
    have checked : checkArgs (rowOf p i) [] = none := by simp [checkArgs, hrow, firstBadLiteral, firstBadConstraint]
    have operands : readOperands (rowOf p i).params [] = [] := by simp [hrow, readOperands]
    exact decode_of_assemble found checked (operands ▸ hasm)
  | cons t ts =>
    have mismatch : checkArgs (rowOf p i) (t :: ts) = some (.arity i.mnemonic 0 (t :: ts).length) := by
      simp [checkArgs, hrow, firstBadLiteral, (lookupRow_some found).2]
    exact decode_of_checkArgs found mismatch

namespace Machine

/-- R229, R238: resolving no request advances the cursor and leaves everything else. -/
theorem State.resolve_none_frame (s : State) :
    SameMachineState s (s.resolve none) ∧ SameStreams s (s.resolve none) ∧ Advanced s (s.resolve none) :=
  ⟨⟨rfl, rfl, rfl⟩, ⟨rfl, rfl, rfl, rfl⟩, ⟨⟨rfl, rfl, rfl, rfl, rfl⟩, rfl⟩⟩

/-- R201: HLT returns no request and does nothing before it: the whole instruction is the engine's advance. -/
theorem exec_hlt (s : State) : exec .hlt s = .next (s.resolve none) := rfl

/-- Settles O29: HLT is the advance of the engine, and its row has no parameter. -/
theorem hltOnlyAdvances : Obligations.HltOnlyAdvances :=
  ⟨fun s => ⟨_, exec_hlt s, s.resolve_none_frame⟩, fun _ => decode_of_nullary_row (i := .hlt) rfl rfl⟩

end Machine

end Sys2Proof
end

section
/-! PROOFS. The family `44_execution_engine.md`: walks that the host cannot reach into (R233), resumption by the awaited label
(R224), and the label index as the log gives it (R222). -/

namespace Sys2Proof.Machine

/-! ## Walks -/

/-- R227, R233: no instruction reaches the log, the label index or the host's input, whatever it requests of the engine. -/
theorem exec_keeps_log_labels_input {i : Instr} {s t : State} (h : exec i s = .next t) :
    t.log = s.log ∧ t.labels = s.labels ∧ t.input = s.input := by
  obtain ⟨u, q, hexec, frame, -, -⟩ := exec_cases i s
  obtain rfl : u.resolve q = t := Host.Outcome.next.inj (hexec.symm.trans h)
  rw [State.resolve_log, State.resolve_labels, State.resolve_input]
  exact ⟨frame.engine.log, frame.engine.labels, frame.engine.input⟩

/-- Settles O39: a step of a walk is an instruction, which keeps all three, or the end of the walk, which moves the cursor
and answers. -/
theorem walksAreAtomicForTheHost : Obligations.WalksAreAtomicForTheHost := by
  intro s t k hmode hpc h
  rcases step_cases s with ⟨between, -⟩ | ⟨j, e, -, -, -, hstep⟩ | ⟨-, -, hstep⟩ | ⟨j, -, -, -, hstep⟩
  · simp [hmode, hpc] at between
  · exact exec_keeps_log_labels_input (hstep.symm.trans h)
  · obtain rfl : finishWalk s = t := Host.Outcome.next.inj (hstep.symm.trans h)
    exact ⟨rfl, rfl, rfl⟩
  · cases hstep.symm.trans h

/-! ## Suspension -/

/-- R226, R229: while `RUNNING`, `executeNext` on a log that is not empty starts a walk at the newest entry. -/
theorem executeNext_pc_of_running {s : State} {es : List Entry} {e : Entry} (hmode : s.mode = .running)
    (hlog : s.log = es ++ [e]) : (executeNext s).pc = .index es.length := by
  simp [executeNext, hmode, hlog]

/-- R234: while `SUSPENDED`, `executeNext` starts no walk. -/
theorem executeNext_pc_of_suspended {s : State} {w : Label} (hmode : s.mode = .suspended w) :
    (executeNext s).pc = s.pc := by
  simp [executeNext, hmode]

/-- R224: the entry that carries the awaited label resumes the engine. -/
theorem modeAfterAppend_of_awaited {e : Entry} {w : Label} (h : e.label = some w) :
    modeAfterAppend (.suspended w) e = .running := if_pos h

/-- R224: no other entry does. -/
theorem modeAfterAppend_of_other {e : Entry} {w : Label} (h : e.label ≠ some w) :
    modeAfterAppend (.suspended w) e = .suspended w := if_neg h

/-- Settles O44: the append writes `modeAfterAppend`, by which the next `executeNext` either starts at the entry just
appended or starts nothing. -/
theorem onlyTheAwaitedLabelResumes : Obligations.OnlyTheAwaitedLabelResumes := by
  intro e s w hmode hnew
  rw [addInstruction_of_newLabel hnew, hmode]
  refine ⟨fun awaited => ?resumes, fun other => ?waits, rfl, rfl, ⟨rfl, rfl, rfl⟩, rfl⟩
  case resumes =>
    have running := modeAfterAppend_of_awaited awaited
    exact ⟨running, executeNext_pc_of_running running rfl⟩
  case waits =>
    have suspended := modeAfterAppend_of_other other
    obtain ⟨⟨hregs, hflags, hmem⟩, -⟩ := executeNext_frame _
    exact ⟨suspended, ⟨hregs, hflags, hmem⟩, executeNext_pc_of_suspended suspended⟩

/-! ## The label index -/

/-- With unique names, what a label finds is exactly its pair of the index. -/
theorem LabelIndex.find_eq_some_iff_mem {ls : LabelIndex} (hu : (ls.map Prod.fst).Nodup) {l : Label} {k : Nat} :
    LabelIndex.find ls l = some k ↔ (l, k) ∈ ls :=
  ⟨LabelIndex.mem_of_find, LabelIndex.find_of_mem hu⟩

/-- R222: the label index of a whole log pairs each label with the index of the entry that carries it. -/
theorem mem_labelIndexFrom_zero {es : List Entry} {l : Label} {k : Nat} :
    (l, k) ∈ labelIndexFrom 0 es ↔ ∃ e, es[k]? = some e ∧ e.label = some l := by
  simp [mem_labelIndexFrom]

/-- R222: an append adds at the end of the label index, so a defined label keeps its index. -/
theorem labelsAfterAppend_keeps_label {ls : LabelIndex} {l : Label} {k : Nat} (h : LabelIndex.find ls l = some k)
    (e : Entry) (j : Nat) : LabelIndex.find (labelsAfterAppend ls e j) l = some k := by
  unfold labelsAfterAppend
  split
  · exact h
  · exact LabelIndex.find_append_of_some h _

/-- R222: a record that is refused adds no label, and one that is taken adds its own at the end of the index. -/
theorem processRecord_keeps_label {s : State} {l : Label} {k : Nat} (h : LabelIndex.find s.labels l = some k)
    (r : Record) : LabelIndex.find (processRecord r s).labels l = some k := by
  rcases processRecord_cases r s with ⟨err, -, hr⟩ | ⟨e, n, j, -, -, -, hr⟩ | ⟨e, -, hnew, hr⟩ <;> rw [hr]
  · exact h
  · exact h
  · obtain ⟨-, -, -, -, hlabels, -⟩ := executeNext_frame (addInstruction e s).2
    rw [hlabels, addInstruction_of_newLabel hnew]
    exact labelsAfterAppend_keeps_label h e s.log.length

/-- R222, R282: only a line that is a record can add a label; no request takes one away or moves it. -/
theorem serve_keeps_label {s : State} {l : Label} {k : Nat} (h : LabelIndex.find s.labels l = some k)
    (q : HostRequest) : LabelIndex.find (serve q s).labels l = some k := by
  cases q with
  | line text =>
    rcases processLine_cases text s with hl | hl | hl | ⟨r, -, hl⟩ <;> rw [serve, hl]
    · exact h
    · exact h
    · exact h
    · exact processRecord_keeps_label h r
  | inspect => exact h
  | load x => exact h
  | save => exact h
  | quit => exact h

/-- R222: the host's turn keeps the index of a defined label. -/
theorem hostStep_keeps_label {s : State} {l : Label} {k : Nat} (h : LabelIndex.find s.labels l = some k) :
    LabelIndex.find (hostStep s).labels l = some k := by
  unfold hostStep
  split
  · exact h
  · next q rest _ => exact serve_keeps_label (s := { s with input := rest }) h q

/-- R222: a defined label keeps its index in every step, in every state. -/
theorem step_keeps_label {s t : State} {l : Label} {k : Nat} (h : LabelIndex.find s.labels l = some k)
    (hst : step s = .next t) : LabelIndex.find t.labels l = some k := by
  rcases step_cases s with ⟨-, hstep⟩ | ⟨j, e, -, -, -, hstep⟩ | ⟨-, -, hstep⟩ | ⟨j, -, -, -, hstep⟩ <;> rw [hstep] at hst
  · obtain rfl := Host.Outcome.next.inj hst
    exact hostStep_keeps_label h
  · obtain ⟨-, hlabels, -⟩ := exec_keeps_log_labels_input hst
    rwa [hlabels]
  · obtain rfl := Host.Outcome.next.inj hst
    exact h
  · cases hst

/-- Settles O57: under the invariant a label finds exactly its pair of the log's own index; and `step_keeps_label`. -/
theorem labelsNameTheEntriesThatCarryThem : Obligations.LabelsNameTheEntriesThatCarryThem := by
  intro s l k inv
  refine ⟨?carries, fun t => step_keeps_label⟩
  calc LabelIndex.find s.labels l = some k
      ↔ (l, k) ∈ s.labels := LabelIndex.find_eq_some_iff_mem inv.unique
    _ ↔ (l, k) ∈ labelIndexFrom 0 s.log := by rw [← inv.labels]
    _ ↔ ∃ e, s.log[k]? = some e ∧ e.label = some l := mem_labelIndexFrom_zero

end Sys2Proof.Machine
end

section
/-! PROOFS. The family `60_exceptions.md`: a wrong argument count, after the literals (R270), and a label defined twice
(R264). -/

namespace Sys2Proof

open Sys2Proof.Machine

/-! ## E8 and E2 -/

/-- R268: E8 finds nothing where every token at a BYTE or WORD position reads. -/
theorem firstBadLiteral_eq_none {row : Row} {args : List Token} (reads : ∀ k t, ¬ BadLiteralAt row args k t) :
    firstBadLiteral row.params args = none := by
  rcases firstBadLiteral_spec row args with ⟨hnone, -⟩ | ⟨k, t, -, bad, -⟩
  · exact hnone
  · exact absurd bad (reads k t)

/-- R268: E8 finds the token at the first BYTE or WORD position that does not read. -/
theorem firstBadLiteral_eq_some {row : Row} {args : List Token} {k : Nat} {t : Token} (bad : BadLiteralAt row args k t)
    (first : ∀ j u, j < k → ¬ BadLiteralAt row args j u) : firstBadLiteral row.params args = some t := by
  rcases firstBadLiteral_spec row args with ⟨-, reads⟩ | ⟨j, u, hsome, bad', first'⟩
  · exact absurd bad (reads k t)
  · obtain rfl : j = k := Nat.le_antisymm (not_lt.mp fun h => first' k t h bad) (not_lt.mp fun h => first j u h bad')
    obtain ⟨hu, -⟩ := bad'
    obtain ⟨ht, -⟩ := bad
    exact hsome.trans (hu.symm.trans ht)

/-- R72, R76: the row of a well-formed instruction declares as many parameters as the instruction has argument tokens. -/
theorem rowOf_params_length {p : Params} {i : Instr} (h : i.wellFormed p = true) :
    (rowOf p i).params.length = i.argTokens.length := by
  cases i with
  | out operand =>
    obtain ⟨row, hrow, -, hlen⟩ := Laws.EncodeArity.out operand p h
    obtain rfl : rowOf p (.out operand) = row := Option.some.inj ((lookupRow_mnemonic p _).symm.trans hrow)
    exact hlen
  | _ => rfl

/-- R268, R270: a bad literal is E8, whatever the count and the other arguments are. -/
theorem decode_of_firstBadLiteral {p : Params} {i : Instr} {args : List Token} {t : Token}
    (hE8 : firstBadLiteral (rowOf p i).params args = some t) (label : Option Label) :
    decode p ⟨some i.mnemonic, args, label⟩ = .error (.literal t) :=
  decode_of_checkArgs (lookupRow_mnemonic p i) (by simp [checkArgs, hE8])

/-- R76, R270: what it takes for E2: the literals read, and the count is not the declared one. -/
theorem decode_of_arity_mismatch {p : Params} {i : Instr} {args : List Token}
    (hE8 : firstBadLiteral (rowOf p i).params args = none) (hE2 : args.length ≠ (rowOf p i).params.length)
    (label : Option Label) :
    decode p ⟨some i.mnemonic, args, label⟩ = .error (.arity i.mnemonic (rowOf p i).params.length args.length) := by
  have hrow := lookupRow_mnemonic p i
  have hc : checkArgs (rowOf p i) args = some (.arity (rowOf p i).mnemonic (rowOf p i).params.length args.length) := by
    simp [checkArgs, hE8, hE2]
  rw [decode_of_checkArgs hrow hc, (lookupRow_some hrow).2]

/-- Settles O7: the scan for E8 decides between the two errors, and the row declares the instruction's own arity. -/
theorem arityMismatchIsRejected : Obligations.ArityMismatchIsRejected := by
  intro p i row args label wf hrow hcount
  obtain rfl : rowOf p i = row := Option.some.inj ((lookupRow_mnemonic p i).symm.trans hrow)
  have declared := rowOf_params_length wf
  refine ⟨fun reads => ?arity, fun k t bad first => decode_of_firstBadLiteral (firstBadLiteral_eq_some bad first) label⟩
  case arity =>
    rw [← declared] at hcount ⊢
    exact decode_of_arity_mismatch (firstBadLiteral_eq_none reads) hcount label

namespace Machine

/-! ## E4 -/

/-- R260: a report leaves the machine state, the engine and the cursor, and is the one report made. -/
theorem State.report_frame (s : State) (err : ErrorReport) :
    SameMachineState s (s.report err) ∧ SameEngine s (s.report err) ∧ (s.report err).pc = s.pc ∧
      Reported err s (s.report err) :=
  ⟨⟨rfl, rfl, rfl⟩, ⟨rfl, rfl, rfl, rfl, rfl⟩, rfl, ⟨rfl, rfl, rfl, rfl⟩⟩

/-- Settles O43: the append is rejected with the earlier index, and all it does is its report. -/
theorem duplicateLabelIsRejected : Obligations.DuplicateLabelIsRejected := by
  intro e s l k hl hk
  rw [addInstruction_of_duplicate hl hk]
  exact ⟨rfl, s.report_frame (.duplicateLabel l k)⟩

end Machine

end Sys2Proof
end

section
/-! PROOFS. The encoding, 1: literals, and a record against the instruction it spells (R70 to R79, R84). -/

namespace Sys2Proof

open Sys2Proof.Machine

/-! ## Literals -/

/-- R84: a literal spells one number. -/
theorem Machine.HexLiteral.unique {t : Token} {v w : Nat} (hv : HexLiteral t v) (hw : HexLiteral t w) : v = w :=
  Option.some.inj ((readHex_eq_some_iff.mpr hv).symm.trans (readHex_eq_some_iff.mpr hw))

/-- R79: the range check of a literal of `n` bits. -/
theorem fits_eq_some_iff {n v : Nat} {b : BitVec n} :
    (if v < 2 ^ n then some (BitVec.ofNat n v) else none) = some b ↔ v = b.toNat := by
  constructor
  · intro h
    split at h
    · next hlt =>
      obtain rfl := Option.some.inj h
      rw [BitVec.toNat_ofNat, Nat.mod_eq_of_lt hlt]
    · cases h
  · rintro rfl
    rw [if_pos b.isLt, BitVec.ofNat_toNat, BitVec.setWidth_eq]

/-- R79, R84: what reads as a byte. -/
theorem readByte_eq_some_iff {t : Token} {b : Byte} : readByte t = some b ↔ HexLiteral t b.toNat := by
  rw [← readHex_eq_some_iff, readByte]
  cases readHex t with
  | none => simp
  | some v => exact (fits_eq_some_iff (n := 8)).trans Option.some_inj.symm

/-- R79, R84: what reads as a word. -/
theorem readWord_eq_some_iff {t : Token} {w : Word} : readWord t = some w ↔ HexLiteral t w.toNat := by
  rw [← readHex_eq_some_iff, readWord]
  cases readHex t with
  | none => simp
  | some v => exact (fits_eq_some_iff (n := 16)).trans Option.some_inj.symm

/-- R79 (D7): a literal above 0xFF is refused as a byte. -/
theorem readByte_eq_none_of_wide {t : Token} {v : Nat} (h : HexLiteral t v) (hv : 0xFF < v) : readByte t = none := by
  refine Option.eq_none_iff_forall_ne_some.mpr fun b hb => ?_
  have := (readByte_eq_some_iff.mp hb).unique h
  have := b.isLt
  omega

/-- R79 (D7): a literal above 0xFFFF is refused as a word. -/
theorem readWord_eq_none_of_wide {t : Token} {v : Nat} (h : HexLiteral t v) (hv : 0xFFFF < v) : readWord t = none := by
  refine Option.eq_none_iff_forall_ne_some.mpr fun w hw => ?_
  have := (readWord_eq_some_iff.mp hw).unique h
  have := w.isLt
  omega

/-- The encoder's digit is a hexadecimal digit of its value. -/
theorem hexDigitOf_hexDigit {n : Nat} (h : n < 16) : HexDigitOf (hexDigit n) n :=
  hexDigitValue_eq_some_iff.mp (hexDigitValue_hexDigit h)

/-- D26: the two digits of a byte spell it. -/
theorem hexRun_byteToken (b : Byte) : HexRun (byteToken b).toList b.toNat := by
  have hb := b.isLt
  rw [byteToken, String.toList_ofList]
  refine ⟨List.cons_ne_nil _ _, [b.toNat / 16, b.toNat % 16], ?digits, ?value⟩
  case digits => exact .cons (hexDigitOf_hexDigit (by omega)) (.cons (hexDigitOf_hexDigit (by omega)) .nil)
  case value => simp [Nat.ofDigits]; omega

/-- D26: the four digits of a word spell it. -/
theorem hexRun_wordToken (w : Word) : HexRun (wordToken w).toList w.toNat := by
  have hw := w.isLt
  rw [wordToken, String.toList_ofList]
  refine ⟨List.cons_ne_nil _ _, [w.toNat / 4096, w.toNat / 256 % 16, w.toNat / 16 % 16, w.toNat % 16], ?digits, ?value⟩
  case digits =>
    exact .cons (hexDigitOf_hexDigit (by omega)) (.cons (hexDigitOf_hexDigit (by omega))
      (.cons (hexDigitOf_hexDigit (by omega)) (.cons (hexDigitOf_hexDigit (by omega)) .nil)))
  case value => simp [Nat.ofDigits]; omega

/-- R84: a run of digits is a literal, and so is the run with the suffix. -/
theorem Machine.HexRun.literal {t : Token} {v : Nat} (h : HexRun t.toList v) : HexLiteral t v ∧ HexLiteral (t ++ "H") v :=
  ⟨⟨_, h, .inl rfl⟩, ⟨_, h, .inr (by simp)⟩⟩

@[simp] theorem readByte_byteToken (b : Byte) : readByte (byteToken b) = some b :=
  readByte_eq_some_iff.mpr (hexRun_byteToken b).literal.1

@[simp] theorem readWord_wordToken (w : Word) : readWord (wordToken w) = some w :=
  readWord_eq_some_iff.mpr (hexRun_wordToken w).literal.1

/-- Settles O10: the two readers are exactly the literals that fit, and the encoder's digits are literals. -/
theorem hexLiteralsReadAsUnsigned : Obligations.HexLiteralsReadAsUnsigned := by
  refine ⟨fun b => ⟨readByte_byteToken b, ?suffixedByte⟩, fun w => ⟨readWord_wordToken w, ?suffixedWord, ?wideWord⟩,
    fun _ _ => readByte_eq_some_iff, fun _ _ => readWord_eq_some_iff,
    fun _ _ h => ⟨readByte_eq_none_of_wide h, readWord_eq_none_of_wide h⟩⟩
  case suffixedByte => exact readByte_eq_some_iff.mpr (hexRun_byteToken b).literal.2
  case suffixedWord => exact readWord_eq_some_iff.mpr (hexRun_wordToken w).literal.2
  case wideWord => exact fun hw => readByte_eq_none_of_wide (hexRun_wordToken w).literal.1 hw

/-! ## The operands of an instruction -/

/-- R74: the operands of an instruction, in the order of its row. -/
def Instr.operands : Instr → List Operand
  | .mov dst src => [.reg dst, .reg src]
  | .mvi dst data => [.reg dst, .byte data]
  | .ldax q | .stax q | .inx q | .dcx q => [.pair q]
  | .lxi q data => [.pair q, .word data]
  | .add r | .sub r | .cmp r | .inr r | .dcr r => [.reg r]
  | .adi data | .sui data | .cpi data => [.byte data]
  | .jz t | .jnz t | .jc t | .jnc t => [.label t]
  | .out (.port b) => [.byte b]
  | .out .nullary | .hlt => []

/-- R74: each operand is written as one token. -/
theorem Instr.argTokens_length (i : Instr) : i.argTokens.length = i.operands.length := by
  cases i with
  | out o => cases o <;> rfl
  | _ => rfl

/-- R81: an opcode and operands make exactly the instruction of that row with those operands. -/
theorem assemble_eq_some_iff {p : Params} {o : Opcode} {xs : List Operand} {i : Instr} :
    assemble o xs = some i ↔ o = (rowOf p i).opcode ∧ xs = i.operands := by
  constructor
  · intro h
    unfold assemble at h
    split at h <;> cases h <;> exact ⟨rfl, rfl⟩
  · rintro ⟨rfl, rfl⟩
    cases i with
    | out operand => cases operand <;> rfl
    | _ => rfl

/-- R72: no two rows of the table have one opcode. -/
theorem opcodeTable_opcodes_nodup (p : Params) : ((opcodeTable p).map Row.opcode).Nodup := by
  simp [opcodeTable]

/-- R73: a row of the table is the row of every instruction of its opcode. -/
theorem row_eq_rowOf {p : Params} {row : Row} {i : Instr} (hrow : row ∈ opcodeTable p)
    (ho : row.opcode = (rowOf p i).opcode) : row = rowOf p i :=
  List.inj_on_of_nodup_map (opcodeTable_opcodes_nodup p) hrow (lookupRow_some (lookupRow_mnemonic p i)).1 ho

/-- R75 to R81: a record decodes to an entry iff it has the entry's mnemonic and label, and arguments that pass the checks
of the instruction's row and read as its operands. -/
theorem decode_eq_ok_iff {p : Params} {r : Record} {e : Entry} : decode p r = .ok e ↔
    r.opcode = some e.instr.mnemonic ∧ checkArgs (rowOf p e.instr) r.args = none ∧
      readOperands (rowOf p e.instr).params r.args = e.instr.operands ∧ r.label = e.label := by
  constructor
  · intro h
    obtain ⟨op, row, hop, hrow, hchecks, hassemble, hlabel⟩ := decode_ok h
    obtain ⟨hmem, rfl⟩ := lookupRow_some hrow
    obtain ⟨hopcode, hoperands⟩ := assemble_eq_some_iff (p := p).mp hassemble
    obtain rfl := row_eq_rowOf hmem hopcode
    have hmnemonic : (rowOf p e.instr).mnemonic = e.instr.mnemonic := (lookupRow_some (lookupRow_mnemonic p e.instr)).2
    exact ⟨hmnemonic ▸ hop, hchecks, hoperands, hlabel.symm⟩
  · obtain ⟨opcode, args, label⟩ := r
    rintro ⟨rfl, hchecks, hoperands, rfl⟩
    exact decode_of_assemble (lookupRow_mnemonic p e.instr) hchecks (assemble_eq_some_iff.mpr ⟨rfl, hoperands⟩)

/-- A decoded record has as many arguments as the row has parameters, and the instruction as many operands. -/
theorem decoded_lengths {p : Params} {i : Instr} {args : List Token} (hchecks : checkArgs (rowOf p i) args = none)
    (hoperands : readOperands (rowOf p i).params args = i.operands) :
    args.length = (rowOf p i).params.length ∧ i.operands.length = (rowOf p i).params.length := by
  obtain ⟨hlen, hreads⟩ := operands_of_checkArgs hchecks
  exact ⟨hlen, hoperands ▸ readOperands_length hlen hreads⟩

/-- Settles O5: what `decode_eq_ok_iff` says of the mnemonic and the label, and `decoded_lengths` of the arity. -/
theorem decodeKeepsMnemonicArityAndLabel : Obligations.DecodeKeepsMnemonicArityAndLabel := by
  intro p r e h
  obtain ⟨hop, hchecks, hoperands, hlabel⟩ := decode_eq_ok_iff.mp h
  obtain ⟨hargs, hdeclared⟩ := decoded_lengths hchecks hoperands
  exact ⟨hop, by rw [Instr.argTokens_length, hargs, hdeclared], hlabel⟩

/-! ## The decoder inverts the encoder -/

/-- R268: E8 finds nothing where every token reads. -/
theorem firstBadLiteral_of_reads {qs : List Param} {ts : List Token}
    (h : List.Forall₂ (fun q t => readOperand q.type t ≠ none) qs ts) : firstBadLiteral qs ts = none := by
  induction h with
  | nil => rfl
  | cons hread _ ih => rw [firstBadLiteral_cons_of_reads hread, ih]

/-- R263: E3 finds nothing where every token reads. -/
theorem firstBadConstraint_of_reads {qs : List Param} {ts : List Token}
    (h : List.Forall₂ (fun q t => readOperand q.type t ≠ none) qs ts) (pos : Nat) :
    firstBadConstraint qs ts pos = none := by
  induction h generalizing pos with
  | nil => rfl
  | cons hread _ ih => rw [firstBadConstraint_cons_of_reads hread, ih]

/-- R270: arguments that all read as operands of their positions fail no check. -/
theorem checkArgs_of_reads {row : Row} {args : List Token}
    (h : List.Forall₂ (fun q t => readOperand q.type t ≠ none) row.params args) : checkArgs row args = none := by
  simp [checkArgs, firstBadLiteral_of_reads h, firstBadConstraint_of_reads h, h.length_eq]

@[simp] theorem OutOperand.port_matchesForm {b : Byte} {f : OutForm} :
    (OutOperand.port b).matchesForm f = true ↔ f = .port := by
  cases f <;> simp [OutOperand.matchesForm]

@[simp] theorem OutOperand.nullary_matchesForm {f : OutForm} :
    OutOperand.nullary.matchesForm f = true ↔ f = .nullary := by
  cases f <;> simp [OutOperand.matchesForm]

/-- R71, R74: the token the encoder writes at each position reads as the operand there. -/
theorem readOperand_argTokens {p : Params} {i : Instr} (h : i.wellFormed p = true) :
    List.Forall₂ (fun q t => readOperand q.type t ≠ none) (rowOf p i).params i.argTokens ∧
      readOperands (rowOf p i).params i.argTokens = i.operands := by
  cases i with
  | out o =>
    cases o with
    | port b =>
      have hform : p.outForm = .port := by simpa [Instr.wellFormed] using h
      simp [rowOf, outParams, hform, Instr.argTokens, OutOperand.tokens, readOperand, readOperands, Instr.operands]
    | nullary =>
      have hform : p.outForm = .nullary := by simpa [Instr.wellFormed] using h
      simp [rowOf, outParams, hform, Instr.argTokens, OutOperand.tokens, readOperands, Instr.operands]
  | _ => simp [rowOf, Instr.argTokens, readOperand, readOperands, Instr.operands]

/-- Settles O2: the encoder's tokens pass the checks and read as the instruction's operands, which is what it takes to
decode to it. -/
theorem decodeInvertsEncode : Obligations.DecodeInvertsEncode := by
  intro p e h
  obtain ⟨hinstr, -⟩ : e.instr.wellFormed p = true ∧ _ := by simpa [Entry.wellFormed] using h
  obtain ⟨hreads, hoperands⟩ := readOperand_argTokens hinstr
  exact decode_eq_ok_iff.mpr ⟨rfl, checkArgs_of_reads hreads, hoperands, rfl⟩

/-- Settles O1: each record has its instruction's mnemonic, and its arguments evaluate to the instruction's operands. -/
theorem specRecordsDecode : Obligations.SpecRecordsDecode := by
  refine ⟨?_, ?_, ?_, ?_, ?_, ?_, ?_, ?_, ?_⟩ <;> exact decode_eq_ok_iff.mpr (by decide)

/-! ## Refusals -/

/-- E8 stops at a literal position whose token does not read. -/
theorem firstBadLiteral_cons_of_bad {q : Param} {t : Token} (hq : q.type.isLiteral = true)
    (ht : readOperand q.type t = none) (qs : List Param) (ts : List Token) :
    firstBadLiteral (q :: qs) (t :: ts) = some t := by
  simp [firstBadLiteral, hq, ht]

/-- Settles O9: in each row the scan for E8 passes over a register or a pair and stops at the literal. -/
theorem badLiteralIsRefused : Obligations.BadLiteralIsRefused := by
  intro p label t u
  have byteFails {x : Token} (h : readByte x = none) : readOperand .byte x = none := by simp [readOperand, h]
  have wordFails {x : Token} (h : readWord x = none) : readOperand .word x = none := by simp [readOperand, h]
  have single (i : Instr) (name : String) (hrow : (rowOf p i).params = [⟨name, .byte⟩]) (ht : readByte t = none) :
      decode p ⟨some i.mnemonic, [t], label⟩ = .error (.literal t) :=
    decode_of_firstBadLiteral (hrow ▸ firstBadLiteral_cons_of_bad (q := ⟨name, .byte⟩) rfl (byteFails ht) [] []) label
  refine ⟨?immediates, fun hform => ?out, fun hu => ?mvi, fun hu => ?lxi⟩
  case immediates =>
    simp only [List.forall_mem_cons]
    exact ⟨single (.adi 0) _ rfl, single (.sui 0) _ rfl, single (.cpi 0) _ rfl, by simp⟩
  case out => exact single (.out .nullary) "port" (congrArg outParams hform)
  case mvi =>
    refine decode_of_firstBadLiteral (i := .mvi .M 0) ?_ label
    calc firstBadLiteral [⟨"dst", .reg⟩, ⟨"data", .byte⟩] [t, u]
        = firstBadLiteral [⟨"data", .byte⟩] [u] := firstBadLiteral_cons_of_not_literal rfl t _ _
      _ = some u := firstBadLiteral_cons_of_bad rfl (byteFails hu) [] []
  case lxi =>
    refine decode_of_firstBadLiteral (i := .lxi .B 0) ?_ label
    calc firstBadLiteral [⟨"p", .pair⟩, ⟨"data", .word⟩] [t, u]
        = firstBadLiteral [⟨"data", .word⟩] [u] := firstBadLiteral_cons_of_not_literal rfl t _ _
      _ = some u := firstBadLiteral_cons_of_bad rfl (wordFails hu) [] []

/-- R75: the mnemonics of the table, in index order. -/
theorem opcodeTable_mnemonics (p : Params) : (opcodeTable p).map Row.mnemonic =
    ["MOV", "MVI", "LDAX", "STAX", "LXI", "ADD", "ADI", "SUB", "SUI", "CMP", "CPI", "INR", "DCR", "INX", "DCX", "JZ",
      "JNZ", "JC", "JNC", "OUT", "HLT"] := rfl

/-- R75, R261: an opcode token that is no mnemonic of the table, or none, is E1. -/
theorem decode_of_unknownOpcode {p : Params} {op : Option Token}
    (h : ∀ m ∈ (opcodeTable p).map Row.mnemonic, op ≠ some m) (args : List Token) (label : Option Label) :
    decode p ⟨op, args, label⟩ = .error (.unknownOpcode op) := by
  cases op with
  | none => rfl
  | some t =>
    have hrow : lookupRow p t = none := List.find?_eq_none.mpr fun row hrow hm =>
      h row.mnemonic (List.mem_map_of_mem hrow) (congrArg some (eq_of_beq hm).symm)
    simp [decode, hrow]

/-- R78: a record that does not decode makes its report and does nothing else. -/
theorem Machine.processRecord_of_error {r : Record} {s : State} {err : ErrorReport}
    (h : decode s.params r = .error err) : processRecord r s = s.report err := by
  simp [processRecord, h]

/-- Settles O6: the token is in no row of the table, and a record that does not decode is one report. -/
theorem unknownOpcodeIsRejected : Obligations.UnknownOpcodeIsRejected := by
  intro op args label s h
  have hdecode : decode s.params ⟨op, args, label⟩ = .error (.unknownOpcode op) :=
    decode_of_unknownOpcode (by rwa [opcodeTable_mnemonics]) args label
  refine ⟨hdecode, ?_⟩
  rw [processRecord_of_error hdecode]
  exact s.report_frame _

end Sys2Proof
end

section
/-! PROOFS. The encoding, 2: the tokenizer, a line against the entry it spells (R70, R80, R84, R220). -/

namespace Sys2Proof

/-! ## Tokens -/

/-- R84: a token is not empty and has no white space. -/
theorem Token.wellFormed_iff {t : Token} :
    Token.wellFormed t = true ↔ t.toList ≠ [] ∧ ∀ c ∈ t.toList, c.isWhitespace = false := by
  simp [Token.wellFormed]

/-- R80: a label is a token without a colon. -/
theorem Label.wellFormed_iff {l : Label} :
    Label.wellFormed l = true ↔ Token.wellFormed l = true ∧ ∀ c ∈ l.toList, c ≠ ':' := by
  simp [Label.wellFormed]

/-- A well-formed entry's instruction and label are. -/
theorem Entry.wellFormed_iff {p : Params} {e : Entry} : e.wellFormed p = true ↔
    e.instr.wellFormed p = true ∧ ∀ l, e.label = some l → Label.wellFormed l = true := by
  cases h : e.label <;> simp [Entry.wellFormed, h]

/-- R84: every piece of a line is a token. -/
theorem splitChars_wellFormed {cs acc : List Char} (hacc : ∀ c ∈ acc, c.isWhitespace = false) :
    ∀ t ∈ splitChars cs acc, Token.wellFormed t = true := by
  have flushed {a : Char} {acc : List Char} (h : ∀ c ∈ a :: acc, c.isWhitespace = false) :
      Token.wellFormed (String.ofList (a :: acc).reverse) = true := by
    simpa [Token.wellFormed_iff, or_imp, forall_and, and_comm] using h
  induction cs generalizing acc with
  | nil =>
    cases acc with
    | nil => simp [splitChars]
    | cons a acc => simpa only [splitChars, List.forall_mem_singleton] using flushed hacc
  | cons c cs ih =>
    by_cases hc : c.isWhitespace = true
    · have rest := ih (acc := []) (by simp)
      cases acc with
      | nil => simpa only [splitChars_space hc] using rest
      | cons a acc =>
        simp only [splitChars, hc, if_true, List.forall_mem_cons]
        exact ⟨flushed hacc, rest⟩
    · have hc : c.isWhitespace = false := by simpa using hc
      have run := splitChars_run (ds := [c]) (by simpa using hc) cs acc
      simp only [List.singleton_append, List.reverse_singleton] at run
      rw [run]
      exact ih (List.forall_mem_cons.mpr ⟨hc, hacc⟩)

/-- R84: at a space, or at the end of the line, the token being read is complete. -/
theorem splitChars_joinTokens_flush {acc : List Char} (hacc : acc ≠ []) (ts : List Token) :
    splitChars (joinTokens ts) acc = String.ofList acc.reverse :: splitChars (joinTokens ts) [] := by
  obtain ⟨a, acc, rfl⟩ := List.exists_cons_of_ne_nil hacc
  cases ts with
  | nil => simp [joinTokens, splitChars]
  | cons t ts => simp [joinTokens, splitChars]

/-- R84: tokens joined with spaces split into themselves. -/
theorem splitChars_joinTokens {ts : List Token} (h : ∀ t ∈ ts, Token.wellFormed t = true) :
    splitChars (joinTokens ts) [] = ts := by
  induction ts with
  | nil => rfl
  | cons t ts ih =>
    obtain ⟨ht, hts⟩ := List.forall_mem_cons.mp h
    obtain ⟨hne, hchars⟩ := Token.wellFormed_iff.mp ht
    calc splitChars (joinTokens (t :: ts)) []
        = splitChars (t.toList ++ joinTokens ts) [] := splitChars_space rfl _
      _ = splitChars (joinTokens ts) (t.toList.reverse ++ []) := splitChars_run hchars _ []
      _ = t :: splitChars (joinTokens ts) [] := by
        rw [List.append_nil, splitChars_joinTokens_flush (by simpa using hne), List.reverse_reverse, String.ofList_toList]
      _ = t :: ts := by rw [ih hts]

/-! ## Label definitions -/

/-- R80: a leading token defines the name before its one colon, which is its last character. -/
theorem labelDefinition_eq_some_iff {t : Token} {l : Label} : labelDefinition t = some l ↔
    t.toList = l.toList ++ [':'] ∧ (∃ c ∈ l.toList, c.isWhitespace = false) ∧ ∀ c ∈ l.toList, c ≠ ':' := by
  unfold labelDefinition
  split
  · next name hname =>
    have ht : t.toList = name.reverse ++ [':'] := by simpa using congrArg List.reverse hname
    constructor
    · intro h
      split at h
      · next hchecks =>
        obtain rfl := Option.some.inj h
        simpa [ht] using hchecks
      · cases h
    · rintro ⟨hl, hspace, hcolon⟩
      obtain rfl : name = l.toList.reverse := by
        rw [← List.append_cancel_right (ht.symm.trans hl), List.reverse_reverse]
      rw [if_pos (by simpa using ⟨hspace, hcolon⟩), List.reverse_reverse, String.ofList_toList]
  · next hlast =>
    refine ⟨fun h => (by cases h), fun ⟨hl, _⟩ => absurd ?_ (hlast l.toList.reverse)⟩
    simp [hl]

/-- R80: the token that the encoder writes before a labelled entry defines the label. -/
theorem labelDefinition_of_wellFormed {l : Label} (h : Label.wellFormed l = true) :
    labelDefinition (String.ofList (l.toList ++ [':'])) = some l := by
  obtain ⟨htoken, hcolon⟩ := Label.wellFormed_iff.mp h
  obtain ⟨hne, hchars⟩ := Token.wellFormed_iff.mp htoken
  obtain ⟨c, hc⟩ := List.exists_mem_of_ne_nil _ hne
  exact labelDefinition_eq_some_iff.mpr ⟨String.toList_ofList, ⟨c, hc, hchars c hc⟩, hcolon⟩

/-- R80: the name that a token defines is a label. -/
theorem Label.wellFormed_of_labelDefinition {t : Token} {l : Label} (ht : Token.wellFormed t = true)
    (h : labelDefinition t = some l) : Label.wellFormed l = true := by
  obtain ⟨hl, ⟨c, hc, -⟩, hcolon⟩ := labelDefinition_eq_some_iff.mp h
  obtain ⟨-, hchars⟩ := Token.wellFormed_iff.mp ht
  refine Label.wellFormed_iff.mpr ⟨Token.wellFormed_iff.mpr ⟨List.ne_nil_of_mem hc, fun d hd => ?_⟩, hcolon⟩
  exact hchars d (by rw [hl]; exact List.mem_append_left _ hd)

/-! ## Records of token lists -/

/-- R70, R80: the arguments of a record are tokens of its line, and its label is what the first one defines. -/
theorem readRecord_spec {ts : List Token} {l : Label} :
    (∀ t ∈ (readRecord ts).args, t ∈ ts) ∧
      ((readRecord ts).label = some l → ∃ t ∈ ts, labelDefinition t = some l) := by
  have argsOfTokens (label : Option Label) (us : List Token) : ∀ t ∈ (recordOfTokens label us).args, t ∈ us := by
    cases us with
    | nil => exact fun t ht => ht
    | cons u us => exact fun t ht => List.mem_cons_of_mem u ht
  have labelOfTokens (label : Option Label) (us : List Token) : (recordOfTokens label us).label = label := by
    cases us <;> rfl
  cases ts with
  | nil => exact ⟨argsOfTokens none [], by simp [readRecord, labelOfTokens]⟩
  | cons u us =>
    cases hdef : labelDefinition u with
    | some n =>
      simp only [readRecord, hdef, labelOfTokens]
      refine ⟨fun t ht => List.mem_cons_of_mem u (argsOfTokens _ us t ht), ?_⟩
      rintro ⟨⟩
      exact ⟨u, List.mem_cons_self, hdef⟩
    | none =>
      simp only [readRecord, hdef, labelOfTokens]
      exact ⟨argsOfTokens none (u :: us), by simp⟩

/-- R85: a line that is a record is the record of its tokens. -/
theorem readLine_eq_record {text : String} {r : Record} (h : readLine text = .record r) :
    r = readRecord (splitTokens text) := by
  unfold readLine at h
  split at h <;> cases h
  rfl

/-! ## What a line decodes to -/

/-- R74: an operand is what the token of its position reads as. -/
theorem mem_readOperands {x : Operand} {qs : List Param} {ts : List Token} (h : x ∈ readOperands qs ts) :
    ∃ q : Param, ∃ t ∈ ts, readOperand q.type t = some x := by
  induction qs generalizing ts with
  | nil => simp [readOperands] at h
  | cons q qs ih =>
    cases ts with
    | nil => simp [readOperands] at h
    | cons t ts =>
      rcases List.mem_append.mp h with h | h
      · exact ⟨q, t, List.mem_cons_self, by simpa using h⟩
      · obtain ⟨q', t', ht', hread⟩ := ih h
        exact ⟨q', t', List.mem_cons_of_mem t ht', hread⟩

/-- R80: a label operand is its token as it stands. -/
theorem readOperand_eq_label {ty : ParamType} {t : Token} {l : Label} (h : readOperand ty t = some (.label l)) : t = l := by
  cases ty <;> simp_all [readOperand]

/-- R74, R80: what well-formedness asks of an instruction whose operands match its row: its label operands are tokens. -/
theorem Instr.wellFormed_of_operands {p : Params} {i : Instr} (hlen : i.operands.length = (rowOf p i).params.length)
    (hlabels : ∀ l, .label l ∈ i.operands → Token.wellFormed l = true) : i.wellFormed p = true := by
  cases i with
  | jz l | jnz l | jc l | jnc l => exact hlabels l List.mem_cons_self
  | out o =>
    cases o <;> cases hform : p.outForm <;> simp_all [Instr.operands, rowOf, outParams, Instr.wellFormed]
  | _ => rfl

/-- Settles O4: the operands match the row, since the record decodes; the target and the label come from tokens of the
line. -/
theorem decodedLineIsWellFormed : Obligations.DecodedLineIsWellFormed := by
  intro p text r e hline hdecode
  obtain rfl := readLine_eq_record hline
  obtain ⟨-, hchecks, hoperands, hlabel⟩ := decode_eq_ok_iff.mp hdecode
  have tokens : ∀ t ∈ splitTokens text, Token.wellFormed t = true := splitChars_wellFormed (by simp)
  have instr : e.instr.wellFormed p = true := by
    refine Instr.wellFormed_of_operands (decoded_lengths hchecks hoperands).2 fun l hl => ?_
    obtain ⟨q, t, ht, hread⟩ := mem_readOperands (hoperands ▸ hl)
    obtain rfl := readOperand_eq_label hread
    exact tokens t ((readRecord_spec (l := t)).1 t ht)
  refine Entry.wellFormed_iff.mpr ⟨instr, fun l hl => ?_⟩
  obtain ⟨t, ht, hdef⟩ := readRecord_spec.2 (hlabel.trans hl)
  exact Label.wellFormed_of_labelDefinition (tokens t ht) hdef

/-! ## The text of an entry -/

theorem hexDigit_not_whitespace {n : Nat} (h : n < 16) : (hexDigit n).isWhitespace = false := by
  interval_cases n <;> decide

@[simp] theorem byteToken_wellFormed (b : Byte) : Token.wellFormed (byteToken b) = true := by
  have hb := b.isLt
  simp [Token.wellFormed_iff, byteToken, hexDigit_not_whitespace (show b.toNat / 16 < 16 by omega),
    hexDigit_not_whitespace (show b.toNat % 16 < 16 by omega)]

@[simp] theorem wordToken_wellFormed (w : Word) : Token.wellFormed (wordToken w) = true := by
  have hw := w.isLt
  simp [Token.wellFormed_iff, wordToken, hexDigit_not_whitespace (show w.toNat / 4096 < 16 by omega),
    hexDigit_not_whitespace (show w.toNat / 256 % 16 < 16 by omega),
    hexDigit_not_whitespace (show w.toNat / 16 % 16 < 16 by omega),
    hexDigit_not_whitespace (show w.toNat % 16 < 16 by omega)]

@[simp] theorem RegName.token_wellFormed (r : RegName) : Token.wellFormed r.token = true := by
  rcases r with (_ | _ | _ | _ | _ | _ | _) | _ <;> decide

@[simp] theorem RegPair.token_wellFormed (q : RegPair) : Token.wellFormed q.token = true := by
  cases q <;> decide

/-- R73, R80, R85: a mnemonic is a token, defines no label and is no meta-command. -/
theorem Instr.mnemonic_spec (i : Instr) : Token.wellFormed i.mnemonic = true ∧ labelDefinition i.mnemonic = none ∧
    i.mnemonic ∉ ["help", "quit", "inspect"] := by
  have listed : i.mnemonic ∈ (opcodeTable .default).map Row.mnemonic := by
    obtain ⟨hmem, hrow⟩ := lookupRow_some (lookupRow_mnemonic .default i)
    exact hrow ▸ List.mem_map_of_mem hmem
  have all : ∀ m ∈ (opcodeTable .default).map Row.mnemonic,
      Token.wellFormed m = true ∧ labelDefinition m = none ∧ m ∉ ["help", "quit", "inspect"] := by decide
  exact all _ listed

/-- R74: the argument tokens of a well-formed instruction are tokens. -/
theorem Instr.argTokens_wellFormed {p : Params} {i : Instr} (h : i.wellFormed p = true) :
    ∀ t ∈ i.argTokens, Token.wellFormed t = true := by
  cases i with
  | jz l | jnz l | jc l | jnc l => exact List.forall_mem_singleton.mpr h
  | out o => cases o <;> simp [Instr.argTokens, OutOperand.tokens]
  | _ => simp [Instr.argTokens]

/-- R80, R84: what the label of an entry puts before its instruction. -/
theorem lineTokens_of_label {e : Entry} {l : Label} (h : e.label = some l) :
    lineTokens e = String.ofList (l.toList ++ [':']) :: e.instr.mnemonic :: e.instr.argTokens := by
  simp [lineTokens, h]

theorem lineTokens_of_no_label {e : Entry} (h : e.label = none) :
    lineTokens e = e.instr.mnemonic :: e.instr.argTokens := by
  simp [lineTokens, h]

/-- R80: a label with its colon is a token. -/
theorem labelToken_wellFormed {l : Label} (h : Label.wellFormed l = true) :
    Token.wellFormed (String.ofList (l.toList ++ [':'])) = true := by
  obtain ⟨htoken, -⟩ := Label.wellFormed_iff.mp h
  obtain ⟨-, hchars⟩ := Token.wellFormed_iff.mp htoken
  rw [Token.wellFormed_iff, String.toList_ofList]
  exact ⟨by simp, List.forall_mem_append.mpr ⟨hchars, List.forall_mem_singleton.mpr (by decide)⟩⟩

/-- R84: every token of the line of a well-formed entry is one. -/
theorem lineTokens_wellFormed {p : Params} {e : Entry} (hi : e.instr.wellFormed p = true)
    (hl : ∀ l, e.label = some l → Label.wellFormed l = true) : ∀ t ∈ lineTokens e, Token.wellFormed t = true := by
  have instr : ∀ t ∈ e.instr.mnemonic :: e.instr.argTokens, Token.wellFormed t = true :=
    List.forall_mem_cons.mpr ⟨e.instr.mnemonic_spec.1, Instr.argTokens_wellFormed hi⟩
  cases h : e.label with
  | none => rwa [lineTokens_of_no_label h]
  | some l =>
    rw [lineTokens_of_label h]
    exact List.forall_mem_cons.mpr ⟨labelToken_wellFormed (hl l h), instr⟩

/-- R70, R80: the tokens of an entry's line make its record. -/
theorem readRecord_lineTokens {e : Entry} (hl : ∀ l, e.label = some l → Label.wellFormed l = true) :
    readRecord (lineTokens e) = encode e := by
  obtain ⟨-, noLabel, -⟩ := e.instr.mnemonic_spec
  cases h : e.label with
  | none => simp [lineTokens_of_no_label h, readRecord, noLabel, recordOfTokens, encode, h]
  | some l =>
    rw [lineTokens_of_label h, readRecord, labelDefinition_of_wellFormed (hl l h)]
    simp [recordOfTokens, encode, h]

/-- R85: a line that holds a token which is no meta-command is a record. -/
theorem readLine_of_mem {text : String} {t : Token} (ht : t ∈ splitTokens text)
    (hcommand : t ∉ ["help", "quit", "inspect"]) : readLine text = .record (readRecord (splitTokens text)) := by
  unfold readLine
  split
  case h_1 h | h_2 h | h_3 h =>
    obtain rfl := List.mem_singleton.mp (h ▸ ht)
    simp at hcommand
  case h_4 => rfl

/-- Settles O3: the line splits into the entry's tokens, the mnemonic among them is no meta-command, and the tokens make
its record. -/
theorem readLineInvertsRenderLine : Obligations.ReadLineInvertsRenderLine := by
  intro p e h
  obtain ⟨hi, hl⟩ := Entry.wellFormed_iff.mp h
  have splits : splitTokens (renderLine e) = lineTokens e := by
    rw [splitTokens, renderLine, String.toList_ofList]
    exact splitChars_joinTokens (lineTokens_wellFormed hi hl)
  have mnemonic : e.instr.mnemonic ∈ splitTokens (renderLine e) := by
    rw [splits, lineTokens]
    exact List.mem_append_right _ List.mem_cons_self
  rw [readLine_of_mem mnemonic e.instr.mnemonic_spec.2.2, splits, readRecord_lineTokens hl]

end Sys2Proof
end

section
/-! PROOFS. Data transfer (R100 to R104), comparison, increment and decrement (R136 to R141), and OUT (R200): the handler of
each, and then the engine's advance. -/

namespace Sys2Proof.Machine

/-! ## An instruction that requests nothing -/

/-- R229, R238: what a handler leaves, when it requests nothing, is advanced; its other writes stand. -/
theorem HandlerFrame.advanced {s u : State} (h : HandlerFrame s u) : Advanced s (u.resolve none) :=
  ⟨⟨h.engine.params, h.engine.log, h.engine.labels, h.engine.mode, h.engine.input⟩, congrArg Cursor.next h.pc⟩

/-- The streams are those that the handler left. -/
theorem SameStreams.resolve_none {s u : State} (h : SameStreams s u) : SameStreams s (u.resolve none) :=
  ⟨h.display, h.errors, h.replies, h.freeDraws⟩

/-- A write of a register name reaches no stream. -/
theorem State.setReg_streams (s : State) (r : RegName) (v : Byte) : SameStreams s (s.setReg r v) :=
  ⟨s.setReg_display r v, s.setReg_errors r v, s.setReg_replies r v, s.setReg_freeDraws r v⟩

/-! ## Data transfer -/

/-- R100, R101: both moves write a byte, fixed beforehand, to a register name. -/
theorem State.setReg_resolve_none (s : State) (r : RegName) (v : Byte) :
    let t := (s.setReg r v).resolve none
    OperandWritten r v s t ∧ t.flags = s.flags ∧ SameStreams s t ∧ Advanced s t :=
  ⟨(s.setReg_written r v).congr rfl rfl, s.setReg_flags r v, (s.setReg_streams r v).resolve_none,
    (HandlerFrame.setReg s r v).advanced⟩

/-- Settles O14: MOV writes the byte it read. -/
theorem movCopies : Obligations.MovCopies :=
  fun dst src s => ⟨_, rfl, s.setReg_resolve_none dst (s.reg src)⟩

/-- Settles O16: MVI writes its byte. -/
theorem mviLoadsImmediate : Obligations.MviLoadsImmediate :=
  fun dst data s => ⟨_, rfl, s.setReg_resolve_none dst data⟩

/-- R20: writing a register with what it holds changes nothing. -/
theorem RegFile.set_get_self (f : RegFile) (r : Reg) : f.set r (f.get r) = f :=
  RegFile.ext_get fun x => by rw [RegFile.get_set]; split <;> simp_all

/-- R51: writing a cell of a canonical memory with what it holds changes nothing. -/
theorem Memory.write_read_self {m : Memory} (h : Memory.wf m) {a : Nat} (ha : a < 65536) :
    Memory.write m a (Memory.read m a) = m :=
  Memory.ext_read (Memory.write_wf h ha _) h fun b => by rw [Memory.read_write]; split <;> simp_all

/-- R100: writing a register name with what it holds changes nothing. -/
theorem State.setReg_reg_self {s : State} (h : Memory.wf s.mem) (r : RegName) : s.setReg r (s.reg r) = s := by
  cases r with
  | gp x => exact congrArg (fun f => { s with regs := f }) (RegFile.set_get_self s.regs x)
  | M => exact congrArg (fun m => { s with mem := m }) (Memory.write_read_self h s.hl.isLt)

/-- Settles O15: the write changes nothing, so what is left is the advance. -/
theorem movToItselfChangesNothing : Obligations.MovToItselfChangesNothing := by
  intro r s h
  show Host.Outcome.next ((s.setReg r (s.reg r)).resolve none) = _
  rw [State.setReg_reg_self h]
  rfl

/-- A register written is the only one, and memory is not. -/
theorem OperandWritten.register {x : Reg} {v : Byte} {s t : State} (h : OperandWritten (.gp x) v s t) :
    t.regs.get x = v ∧ SameRegsExcept [x] s t ∧ SameMemory s t := by
  refine ⟨(h.regs x).trans (if_pos rfl), fun r hr => ?_, fun a => (h.mem a).trans (if_neg (by simp))⟩
  have hne : RegName.gp x ≠ .gp r := fun heq => hr (List.mem_singleton.mpr (RegName.gp.inj heq).symm)
  exact (h.regs r).trans (if_neg hne)

/-- R21: a write of A is a write of the register name A. -/
theorem State.setAcc_resolve_none (s : State) (v : Byte) :
    let t := (s.setAcc v).resolve none
    t.regs.get .A = v ∧ SameRegsExcept [.A] s t ∧ SameMemory s t ∧ t.flags = s.flags ∧ SameStreams s t ∧ Advanced s t := by
  obtain ⟨written, hframe⟩ := s.setReg_resolve_none (.gp .A) v
  obtain ⟨hA, hothers, hmem⟩ := written.register
  exact ⟨hA, hothers, hmem, hframe⟩

/-- Settles O17: LDAX writes A with the byte it read. -/
theorem ldaxLoadsFromPairAddress : Obligations.LdaxLoadsFromPairAddress :=
  fun p s => ⟨_, rfl, s.setAcc_resolve_none (s.memRead (s.pair p))⟩

/-- Settles O18: STAX is one write of memory. -/
theorem staxStoresAtPairAddress : Obligations.StaxStoresAtPairAddress :=
  fun p s => ⟨_, rfl, fun a => Memory.read_write s.mem (s.regs.pair p).toNat a (s.regs.get .A), rfl, rfl,
    ⟨rfl, rfl, rfl, rfl⟩, (HandlerFrame.memWrite s (s.pair p) s.acc).advanced⟩

/-- R26: a pair write: the pair holds the word, and the frame that LXI, INX and DCX share. -/
theorem State.setPair_resolve_none (s : State) (p : RegPair) (w : Word) :
    let t := (s.setPair p w).resolve none
    t.regs.pair p = w ∧ SameStreams s t ∧ SameRegsExcept [p.high, p.low] s t ∧ SameMemory s t ∧ t.flags = s.flags ∧
      Advanced s t :=
  ⟨s.regs.pair_setPair p w, ⟨rfl, rfl, rfl, rfl⟩, (s.setPair_splits p w).2.2, fun _ => rfl, rfl,
    (HandlerFrame.of_regs_flags s _ s.flags rfl).advanced⟩

/-- Settles O19: a pair write splits its word. -/
theorem lxiSplitsItsWord : Obligations.LxiSplitsItsWord := by
  intro p data s
  obtain ⟨hhigh, hlow, -⟩ := s.setPair_splits p data
  obtain ⟨-, hstreams, hothers, hmem, hflags, hadvanced⟩ := s.setPair_resolve_none p data
  exact ⟨_, rfl, hhigh, hlow, hothers, hmem, hflags, hstreams, hadvanced⟩

/-! ## Comparison -/

/-- R136, R137: both forms of a comparison write the flags of the exact difference. -/
theorem exec_comparison {s : State} {i : Instr} {b : Byte} (h : (∃ src, i = .cmp src ∧ b = s.reg src) ∨ i = .cpi b) :
    exec i s = .next ((s.setFlags (subSynth (exactDiff s.acc b))).resolve none) := by
  obtain ⟨src, rfl, rfl⟩ | rfl := h
  · rfl
  · rfl

/-- Settles O22: the flags are those of `subSynth_spec`, and its result is discarded. -/
theorem comparisonWritesOnlyFlags : Obligations.ComparisonWritesOnlyFlags := by
  intro s i b hi d
  obtain ⟨-, hcy, hs, hz⟩ := subSynth_spec d (exactDiff_natAbs_lt s.acc b)
  exact ⟨_, exec_comparison hi, ⟨hcy, hs, hz, rfl⟩, rfl, fun _ => rfl, ⟨rfl, rfl, rfl, rfl⟩,
    (HandlerFrame.setFlags s _).advanced⟩

/-! ## INR and DCR -/

/-- R34: flags written after a handler that left AC alone. -/
theorem State.setFlags_written {s u : State} (h : u.flags.ac = s.flags.ac) (y : Synth) :
    FlagsWritten y.cy y.s y.z s ((u.setFlags y).resolve none) :=
  ⟨rfl, rfl, rfl, h⟩

/-- R138: INR writes flags under `AddPolicy`. -/
theorem State.setInrFlags_of_addPolicy {s : State} (h : s.params.inrFlags = .addPolicy) (y : Synth) :
    s.setInrFlags y = s.setFlags y := by
  simp [State.setInrFlags, h]

/-- R138: INR writes none under `Unchanged`. -/
theorem State.setInrFlags_of_unchanged {s : State} (h : s.params.inrFlags = .unchanged) (y : Synth) :
    s.setInrFlags y = s := by
  simp [State.setInrFlags, h]

/-- R138: the flags of an increment: only 0xFF carries, and a sum of 1 or more is not 0. -/
theorem addSynth_succ_flags (b : Byte) : (addSynth (b.toNat + 1)).cy = decide (b = 0xFF) ∧
    (addSynth (b.toNat + 1)).s = false ∧ (addSynth (b.toNat + 1)).z = false := by
  obtain ⟨-, hcy, hs, hz⟩ := addSynth_spec (b.toNat + 1)
  rw [hcy, hs, hz]
  refine ⟨decide_eq_decide.mpr ?_, rfl, by simp⟩
  bv_omega

/-- Settles O23: the byte stored is the add policy's result; the flags are its own under `AddPolicy`, and the ones before
under `Unchanged`. -/
theorem inrIncrements : Obligations.InrIncrements := by
  intro r s
  obtain ⟨hcy, hs, hz⟩ := addSynth_succ_flags (s.reg r)
  generalize hy : addSynth ((s.reg r).toNat + 1) = y at *
  have hexec : exec (.inr r) s = .next (((s.setReg r y.res).setInrFlags y).resolve none) := hy ▸ rfl
  refine ⟨_, y.res, hexec, ?sum, ?written, fun hpolicy => ?flags, fun hpolicy => ?noFlags, ?streams, ?advanced⟩
  case sum => exact hy ▸ (addSynth_spec _).1
  case written => exact (s.setReg_written r _).congr (State.setInrFlags_regs _ _) (State.setInrFlags_mem _ _)
  case flags =>
    rw [State.setInrFlags_of_addPolicy (by rwa [State.setReg_params])]
    have written := State.setFlags_written (s := s) (u := s.setReg r y.res) (by rw [State.setReg_flags]) y
    rwa [hcy, hs, hz] at written
  case noFlags =>
    rw [State.setInrFlags_of_unchanged (by rwa [State.setReg_params])]
    exact s.setReg_flags r _
  case streams => constructor <;> simp
  case advanced => exact ((HandlerFrame.setReg s r _).trans (.setInrFlags _ _)).advanced

/-- R131: the flags of a decrement: a negative difference comes from 0x00 only, and 0 from 0x01. -/
theorem subSynth_pred_flags (b : Byte) : (subSynth ((b.toNat : Int) - 1)).cy = decide (b = 0x00) ∧
    (subSynth ((b.toNat : Int) - 1)).s = decide (b = 0x00) ∧ (subSynth ((b.toNat : Int) - 1)).z = decide (b = 0x01) := by
  obtain ⟨-, hcy, hs, hz⟩ := subSynth_spec ((b.toNat : Int) - 1) (by omega)
  rw [hcy, hs, hz]
  refine ⟨decide_eq_decide.mpr ?_, decide_eq_decide.mpr ?_, decide_eq_decide.mpr ?_⟩ <;> bv_omega

/-- R139: where the difference is not negative, both values of `DCR_ZERO` store it. -/
theorem dcrResult_of_ne_zero (p : Params) {b : Byte} (h : b ≠ 0x00) :
    (dcrResult p ((b.toNat : Int) - 1)).toNat = b.toNat - 1 := by
  obtain ⟨hres, -⟩ := subSynth_spec ((b.toNat : Int) - 1) (by omega)
  have hb : 0 < b.toNat := by bv_omega
  have hstored : dcrResult p ((b.toNat : Int) - 1) = (subSynth ((b.toNat : Int) - 1)).res := by
    unfold dcrResult
    split
    · rfl
    · exact if_neg (by omega)
  rw [hstored, hres]
  omega

/-- Settles O24: the byte stored is `dcrResult`, and the flags are those of the exact difference. -/
theorem dcrDecrements : Obligations.DcrDecrements := by
  intro r s
  obtain ⟨hcy, hs, hz⟩ := subSynth_pred_flags (s.reg r)
  have written := State.setFlags_written (s := s) (u := s.setReg r (dcrResult s.params ((s.reg r).toNat - 1)))
    (by rw [State.setReg_flags]) (subSynth ((s.reg r).toNat - 1))
  rw [hcy, hs, hz] at written
  refine ⟨_, dcrResult s.params (((s.reg r).toNat : Int) - 1), rfl, dcrResult_of_ne_zero s.params, fun h0 hpolicy => ?abs,
    fun h0 hpolicy => ?wrap, ?operand, written, ?streams, ?advanced⟩
  case abs => simp [h0, dcrResult, hpolicy, subSynth]
  case wrap => simp [h0, dcrResult, hpolicy]
  case operand => exact (s.setReg_written r _).congr rfl rfl
  case streams =>
    obtain ⟨hdisplay, herrors, hreplies, hdraws⟩ := s.setReg_streams r (dcrResult s.params ((s.reg r).toNat - 1))
    exact ⟨hdisplay, herrors, hreplies, hdraws⟩
  case advanced => exact ((HandlerFrame.setReg s r _).trans (.setFlags _ _)).advanced

/-! ## INX and DCX -/

/-- R230: a report inside a walk, and the frame that the rejected INX and DCX share. -/
theorem State.report_resolve_none (s : State) (err : ErrorReport) :
    let t := (s.report err).resolve none
    t.regs = s.regs ∧ Reported err s t ∧ t.flags = s.flags ∧ Advanced s t :=
  ⟨rfl, ⟨rfl, rfl, rfl, rfl⟩, rfl, (HandlerFrame.report s err).advanced⟩

/-- R140: INX at 0xFFFF under `Wrap`. -/
theorem State.inxAtTop_of_wrap {s : State} (h : s.params.inxAtFFFF = .wrap) (p : RegPair) :
    s.inxAtTop p = s.setPair p 0x0000 := by
  simp [State.inxAtTop, h]

/-- R140: INX at 0xFFFF under `Reject`. -/
theorem State.inxAtTop_of_reject {s : State} (h : s.params.inxAtFFFF = .reject) (p : RegPair) :
    s.inxAtTop p = s.report (.pairOverflow p) := by
  simp [State.inxAtTop, h]

/-- Settles O25: below the top, a pair write; at the top, the pair write or the report that `INX_AT_FFFF` selects. -/
theorem inxIncrementsPair : Obligations.InxIncrementsPair := by
  intro p s
  by_cases h : s.regs.pair p = 0xFFFF
  case neg =>
    have hlt : (s.regs.pair p).toNat < 0xFFFF := by bv_omega
    obtain ⟨hpair, hstreams, hframe⟩ := s.setPair_resolve_none p (s.regs.pair p + 1)
    have hsum : (s.regs.pair p + 1).toNat = (s.regs.pair p).toNat + 1 := by bv_omega
    rw [← hpair] at hsum
    exact ⟨_, exec_inx_of_lt hlt, fun _ => ⟨hsum, hstreams⟩, fun h' => absurd h' h, fun h' => absurd h' h, hframe⟩
  case pos =>
    refine ⟨_, exec_inx_at_top h, fun h' => absurd h h', ?_⟩
    cases hpolicy : s.params.inxAtFFFF with
    | wrap =>
      obtain ⟨hpair, hstreams, hframe⟩ := s.setPair_resolve_none p 0x0000
      rw [State.inxAtTop_of_wrap hpolicy]
      exact ⟨fun _ _ => ⟨hpair, hstreams⟩, fun _ hreject => (by cases hreject), hframe⟩
    | reject =>
      obtain ⟨hregs, hreport, hframe⟩ := s.report_resolve_none (.pairOverflow p)
      rw [State.inxAtTop_of_reject hpolicy]
      exact ⟨fun _ hwrap => (by cases hwrap), fun _ _ => ⟨hregs, hreport⟩, fun _ _ => rfl, fun _ => rfl, hframe⟩

/-- Settles O26: at 0x0000 a report, above it a pair write. -/
theorem dcxDecrementsPair : Obligations.DcxDecrementsPair := by
  intro p s
  by_cases h : s.regs.pair p = 0x0000
  case pos =>
    obtain ⟨hregs, hreport, hframe⟩ := s.report_resolve_none (.pairUnderflow p)
    exact ⟨_, exec_dcx_of_zero h, fun h' => absurd h h', fun _ => ⟨hregs, hreport⟩, fun _ _ => rfl, fun _ => rfl, hframe⟩
  case neg =>
    obtain ⟨hpair, hstreams, hframe⟩ := s.setPair_resolve_none p (s.regs.pair p - 1)
    have hdiff : (s.regs.pair p - 1).toNat = (s.regs.pair p).toNat - 1 := by bv_omega
    rw [← hpair] at hdiff
    exact ⟨_, exec_dcx_of_ne_zero h, fun _ => ⟨hdiff, hstreams⟩, fun h' => absurd h' h, hframe⟩

/-! ## OUT -/

/-- Settles O28: one event, whose tag is the port, or the free value drawn. -/
theorem outEmitsAccumulator : Obligations.OutEmitsAccumulator := by
  intro o s
  have advanced : Advanced s ((s.displayAcc o).resolve none) := (HandlerFrame.displayAcc s o).advanced
  cases o with
  | port b => exact ⟨_, .port b, rfl, rfl, fun c hc => by rw [OutOperand.port.inj hc], ⟨rfl, rfl, rfl⟩, rfl, rfl, advanced⟩
  | nullary =>
    exact ⟨_, .label (Config.nullaryTag s.freeDraws), rfl, rfl, fun c hc => (by cases hc), ⟨rfl, rfl, rfl⟩, rfl, rfl,
      advanced⟩

end Sys2Proof.Machine
end

section
/-! PROOFS. Rules over all instructions (R30, R32, R53, R227, R281). Each goes through the instructions once: the exceptions
by name, the others by the field lemmas of `Laws/State`. -/

namespace Sys2Proof.Machine

/-! ## What an instruction leaves alone -/

/-- R30: the flags, unless the instruction is a flag writer. -/
theorem exec_keeps_flags {i : Instr} {s t : State} (h : exec i s = .next t) (hi : writesFlags s.params i = false) :
    t.flags = s.flags := by
  cases i with
  | add | adi | sub | sui | cmp | cpi | dcr => cases hi
  | inr r =>
    have hpolicy : s.params.inrFlags = .unchanged := by
      cases hp : s.params.inrFlags <;> simp_all [writesFlags]
    obtain rfl := Host.Outcome.next.inj h
    simp [State.setInrFlags_of_unchanged, hpolicy]
  | inx | dcx => obtain rfl := Host.Outcome.next.inj h; split <;> simp
  | _ => obtain rfl := Host.Outcome.next.inj h; simp

/-- R281: the display, unless the instruction is OUT. -/
theorem exec_keeps_display {i : Instr} {s t : State} (h : exec i s = .next t) (hi : isOut i = false) :
    t.display = s.display := by
  cases i with
  | out => cases hi
  | inx | dcx => obtain rfl := Host.Outcome.next.inj h; split <;> simp
  | _ => obtain rfl := Host.Outcome.next.inj h; simp

/-- R23: a write of a register name reaches memory at H:L only, and only for M. -/
theorem State.read_setReg_of_ne {s : State} {r : RegName} {a : Nat} (h : r = .M → a ≠ (s.regs.pair .H).toNat) (v : Byte) :
    Memory.read (s.setReg r v).mem a = Memory.read s.mem a :=
  ((s.setReg_written r v).mem a).trans (if_neg fun ⟨hr, ha⟩ => h hr ha)

/-- R53: every byte but the one at the address the instruction may store to. -/
theorem exec_keeps_memory {i : Instr} {s t : State} {a : Nat} (h : exec i s = .next t)
    (ha : ∀ w, storeAddress i s = some w → a ≠ w.toNat) : Memory.read t.mem a = Memory.read s.mem a := by
  cases i with
  | mov r | mvi r | inr r | dcr r =>
    obtain rfl := Host.Outcome.next.inj h
    have hM : r = .M → a ≠ (s.regs.pair .H).toNat := by
      rintro rfl
      exact ha _ rfl
    simp [State.read_setReg_of_ne hM]
  | stax p =>
    obtain rfl := Host.Outcome.next.inj h
    have hne : a ≠ (s.pair p).toNat := ha _ rfl
    simp [Memory.read_write, hne]
  | inx | dcx => obtain rfl := Host.Outcome.next.inj h; split <;> simp
  | _ => obtain rfl := Host.Outcome.next.inj h; simp

/-- R227, R238: the engine, but for the advance of the cursor, unless the instruction is a jump. -/
theorem exec_advances {i : Instr} {s t : State} (h : exec i s = .next t) (hi : isJump i = false) : Advanced s t := by
  obtain ⟨u, q, hexec, frame, hrequest, -⟩ := exec_cases i s
  obtain rfl := hrequest hi
  obtain rfl := Host.Outcome.next.inj (hexec.symm.trans h)
  exact frame.advanced

/-- Settles O30: the flags an instruction keeps. -/
theorem onlyFlagWritersWriteFlags : Obligations.OnlyFlagWritersWriteFlags :=
  fun _ _ _ => exec_keeps_flags

/-- Settles O33: the bytes an instruction keeps. -/
theorem onlyStoresWriteMemory : Obligations.OnlyStoresWriteMemory :=
  fun _ _ _ _ => exec_keeps_memory

/-- Settles O34: the display an instruction keeps. -/
theorem onlyOutDrivesTheDisplay : Obligations.OnlyOutDrivesTheDisplay :=
  fun _ _ _ => exec_keeps_display

/-- Settles O35: the engine an instruction keeps. -/
theorem onlyJumpsRedirectTheCursor : Obligations.OnlyJumpsRedirectTheCursor :=
  fun _ _ _ => exec_advances

/-! ## S and AC are not read -/

/-- The state with other values of S and AC. -/
def State.withSignAux (s : State) (sn ac : Bool) : State := { s with flags := { s.flags with s := sn, ac := ac } }

section
variable (s : State) (sn ac : Bool)

/-- INX at 0xFFFF does not read S and AC. -/
theorem State.withSignAux_inxAtTop (p : RegPair) :
    (s.withSignAux sn ac).inxAtTop p = (s.inxAtTop p).withSignAux sn ac := by
  cases hpolicy : s.params.inxAtFFFF with
  | wrap =>
    rw [State.inxAtTop_of_wrap hpolicy, State.inxAtTop_of_wrap (s := s.withSignAux sn ac) hpolicy]
    rfl
  | reject =>
    rw [State.inxAtTop_of_reject hpolicy, State.inxAtTop_of_reject (s := s.withSignAux sn ac) hpolicy]
    rfl

/-- The synthesis of INR, where it is written, overwrites S. -/
theorem State.withSignAux_setInrFlags (y : Synth) : (s.withSignAux sn ac).setInrFlags y =
    (s.setInrFlags y).withSignAux (if s.params.inrFlags == .addPolicy then (s.setInrFlags y).flags.s else sn) ac := by
  cases hpolicy : s.params.inrFlags with
  | addPolicy =>
    rw [State.setInrFlags_of_addPolicy hpolicy, State.setInrFlags_of_addPolicy (s := s.withSignAux sn ac) hpolicy]
    rfl
  | unchanged =>
    rw [State.setInrFlags_of_unchanged hpolicy, State.setInrFlags_of_unchanged (s := s.withSignAux sn ac) hpolicy]
    rfl

/-- The engine does not read S and AC. -/
theorem State.withSignAux_resolve (q : Option Label) :
    (s.withSignAux sn ac).resolve q = (s.resolve q).withSignAux sn ac := by
  rcases s.resolve_cases q with ⟨rfl, h⟩ | ⟨l, k, rfl, hl, h⟩ | ⟨l, rfl, hl, h⟩ <;> rw [h]
  · rfl
  · exact State.resolve_of_present hl
  · exact State.resolve_of_absent hl

end

/-- R32: with other values of S and AC beforehand, the same is left but for S and AC: S is the new value where the
instruction writes it, and else the value it had. -/
theorem exec_withSignAux {i : Instr} {s t : State} (h : exec i s = .next t) (sn ac : Bool) :
    exec i (s.withSignAux sn ac) =
      .next (t.withSignAux (if writesFlags s.params i then t.flags.s else sn) ac) := by
  have completes {u : State} {q : Option Label} (x : Bool) (ht : complete u q = .next t) :
      complete (u.withSignAux x ac) q = .next (t.withSignAux x ac) := by
    obtain rfl := Host.Outcome.next.inj ht
    exact congrArg Host.Outcome.next (u.withSignAux_resolve x ac q)
  cases i with
  | jz | jnz | jc | jnc | hlt => exact completes sn h
  | adi | sui | cpi => obtain rfl := Host.Outcome.next.inj h; rfl
  | add r | sub r | cmp r | dcr r => obtain rfl := Host.Outcome.next.inj h; cases r <;> rfl
  | mvi r | ldax r | stax r | lxi r | out r => obtain rfl := Host.Outcome.next.inj h; cases r <;> rfl
  | mov dst src => obtain rfl := Host.Outcome.next.inj h; cases dst <;> cases src <;> rfl
  | inr r =>
    obtain rfl := Host.Outcome.next.inj h
    have flags (y : Synth) := (s.setReg r y.res).withSignAux_setInrFlags sn ac y
    have handler := congrArg (complete · none) (flags (addSynth ((s.reg r).toNat + 1)))
    cases r <;> exact handler
  | inx p =>
    by_cases htop : s.regs.pair p = 0xFFFF
    · rw [exec_inx_at_top (s := s.withSignAux sn ac) htop, s.withSignAux_inxAtTop sn ac p]
      exact completes sn ((exec_inx_at_top htop).symm.trans h)
    · have hlt : (s.regs.pair p).toNat < 0xFFFF := by bv_omega
      exact (exec_inx_of_lt (s := s.withSignAux sn ac) hlt).trans (completes sn ((exec_inx_of_lt hlt).symm.trans h))
  | dcx p =>
    by_cases hzero : s.regs.pair p = 0x0000
    · exact (exec_dcx_of_zero (s := s.withSignAux sn ac) hzero).trans
        (completes sn ((exec_dcx_of_zero hzero).symm.trans h))
    · exact (exec_dcx_of_ne_zero (s := s.withSignAux sn ac) hzero).trans
        (completes sn ((exec_dcx_of_ne_zero hzero).symm.trans h))

/-- Settles O32: the second run leaves the first one's state with another S and AC, which put back give that state. -/
theorem signAndAuxiliaryCarryAreNotRead : Obligations.SignAndAuxiliaryCarryAreNotRead := by
  intro i s t sn ac h
  refine ⟨_, exec_withSignAux h sn ac, rfl, fun hw => ?_, fun hw => ?_, rfl⟩
  · exact if_pos hw
  · exact if_neg (by simp [hw])

end Sys2Proof.Machine
end

section
/-! PROOFS. The engine and the host's requests, one step at a time (R224 to R237, R273 to R282). -/

namespace Sys2Proof.Machine

/-! ## Walks -/

/-- R228: in a walk a step evaluates the entry at the cursor. -/
theorem step_of_entry {s : State} {k : Nat} {e : Entry} (hmode : s.mode = .running) (hpc : s.pc = .index k)
    (he : s.log[k]? = some e) : step s = exec e.instr s := by
  rw [step, phase_of_entry hmode hpc he]

/-- Settles O36: the phase is the evaluation of that entry. -/
theorem stepRunsTheEntryAtTheCursor : Obligations.StepRunsTheEntryAtTheCursor :=
  fun _ _ _ => step_of_entry

/-- Settles O37: the word's entry is placed at the end of the log, with the cursor at it. -/
theorem stepRunsTheDecodedWord : Obligations.StepRunsTheDecodedWord := by
  intro s nbits w e h
  have placed : s.withFetchWord nbits w = s.placeEntry e := by simp [State.withFetchWord, State.placeRecord, h]
  rw [placed]
  exact step_of_entry (k := s.log.length) rfl rfl (by simp [State.placeEntry])

/-- Settles O38: the phase is the end of the walk. -/
theorem walkEndsAtTheEndOfTheLog : Obligations.WalkEndsAtTheEndOfTheLog := by
  intro s hmode hpc
  refine ⟨finishWalk s, ?_, ⟨rfl, rfl, rfl⟩, ⟨rfl, rfl, rfl, rfl, rfl⟩, rfl, rfl, rfl, rfl, rfl⟩
  rw [step, phase_of_end hmode hpc]

/-- Settles O40: the host's step with no request is no change. -/
theorem coreWaitsForTheHost : Obligations.CoreWaitsForTheHost := by
  intro s hturn hinput
  rw [step_of_host hturn, hostStep, hinput]

/-- R181, R229, R232: a jump to its own index is a step to the same state. -/
theorem step_of_selfJump {s : State} {k : Nat} {x : Label} (hmode : s.mode = .running) (hpc : s.pc = .index k)
    (he : s.log[k]? = some ⟨.jnz x, some x⟩) (hx : LabelIndex.find s.labels x = some k) (hz : s.flags.z = false) :
    step s = .next s := by
  have taken : jumpIf (!s.flags.z) x = some x := by simp [jumpIf, hz]
  calc step s = .next (s.resolve (jumpIf (!s.flags.z) x)) := step_of_entry hmode hpc he
    _ = .next { s with pc := .index k } := by rw [taken, State.resolve_of_present hx]
    _ = .next s := by rw [← hpc]

/-- A run begins with its first step, on any machine. -/
theorem run_succ_of_next {M : Host.Core} {s t : M.State} (h : M.step s = .next t) (n : Nat) :
    M.run (n + 1) s = M.run n t := by
  simp [Host.Core.run, h]

/-- Settles O48: by induction on the number of steps, each of which leaves the state. -/
theorem selfJumpRunsForever : Obligations.SelfJumpRunsForever := by
  intro s k x hmode hpc he hx hz n
  have stays : Sys2Proof.core.step s = .next s := step_of_selfJump hmode hpc he hx hz
  induction n with
  | zero => rfl
  | succ n ih => exact (run_succ_of_next stays n).trans ih

/-! ## Lines -/

/-- R237: a line that is a record is processed as one. -/
theorem step_of_record {s : State} {text : String} {rest : List HostRequest} {r : Record} (hturn : TakesRequest s)
    (hinput : s.input = .line text :: rest) (hline : readLine text = .record r) :
    step s = .next (processRecord r { s with input := rest }) := by
  rw [step_of_request hturn hinput]
  simp [serve, processLine, hline]

/-- R223, R237: a record that decodes to an entry with a new label is appended, and `executeNext` runs. -/
theorem processRecord_of_newLabel {s : State} {r : Record} {e : Entry} (hdecode : decode s.params r = .ok e)
    (hnew : ∀ l, e.label = some l → LabelIndex.find s.labels l = none) :
    processRecord r s = executeNext (addInstruction e s).2 := by
  simp [processRecord, hdecode, addInstruction_of_newLabel hnew]

/-- R264: a record that decodes to an entry with a label already defined makes its report and does nothing else. -/
theorem processRecord_of_duplicate {s : State} {r : Record} {e : Entry} {l : Label} {k : Nat}
    (hdecode : decode s.params r = .ok e) (hl : e.label = some l) (hk : LabelIndex.find s.labels l = some k) :
    processRecord r s = s.report (.duplicateLabel l k) := by
  simp [processRecord, hdecode, addInstruction_of_duplicate hl hk]

/-- R229: `executeNext` while `RUNNING`, with a log that is not empty, moves the cursor to the newest entry. -/
theorem executeNext_of_running {s : State} {es : List Entry} {e : Entry} (hmode : s.mode = .running)
    (hlog : s.log = es ++ [e]) : executeNext s = { s with pc := .index es.length } := by
  simp [executeNext, hmode, hlog]

/-- R234: `executeNext` while `SUSPENDED` checks the awaited label and answers. -/
theorem executeNext_of_suspended {s : State} {w : Label} (hmode : s.mode = .suspended w) : executeNext s =
    { s with
      mode := if (LabelIndex.find s.labels w).isSome then .running else .suspended w
      replies := s.replies ++ [.suspended w] } := by
  simp [executeNext, hmode]

/-- Settles O41: the append, and then the walk that starts at the newest entry. -/
theorem acceptedLineStartsAWalkAtItself : Obligations.AcceptedLineStartsAWalkAtItself := by
  intro s text rest r e hmode hpc hinput hline hdecode hnew
  have hstep := step_of_record (.inr hpc) hinput hline
  rw [processRecord_of_newLabel (s := { s with input := rest }) hdecode hnew,
    addInstruction_of_newLabel (s := { s with input := rest }) hnew,
    executeNext_of_running (by simp [hmode, modeAfterAppend]) rfl] at hstep
  refine ⟨_, hstep, rfl, rfl, ?_, fun l hl => find_labelsAfterAppend hl (hnew l hl) _, ⟨rfl, rfl, rfl⟩, rfl, rfl, rfl,
    rfl, rfl⟩
  simp [hmode, modeAfterAppend]

/-- Settles O42: in both cases the record makes its one report. -/
theorem rejectedLineChangesNothing : Obligations.RejectedLineChangesNothing := by
  intro s text rest r err hturn hinput hline hreject
  have reports : processRecord r { s with input := rest } = State.report { s with input := rest } err := by
    obtain hdecode | ⟨e, l, k, hdecode, hl, hk, rfl⟩ := hreject
    · exact processRecord_of_error (s := { s with input := rest }) hdecode
    · exact processRecord_of_duplicate (s := { s with input := rest }) hdecode hl hk
  refine ⟨_, step_of_record hturn hinput hline, ?_⟩
  rw [reports]
  exact ⟨⟨rfl, rfl, rfl⟩, rfl, rfl, rfl, rfl, rfl, rfl, ⟨rfl, rfl, rfl, rfl⟩⟩

/-! ## Suspension -/

/-- R282: the host's turn reaches registers, flags, memory and display only if it takes a `load`. -/
theorem hostStep_machine {s : State} (h : ∀ x rest, s.input ≠ .load x :: rest) :
    SameMachineState s (hostStep s) ∧ (hostStep s).display = s.display := by
  unfold hostStep
  split
  · exact ⟨⟨rfl, rfl, rfl⟩, rfl⟩
  · next q rest hinput =>
    obtain ⟨⟨hregs, hflags, hmem⟩, hdisplay⟩ := serve_machine q { s with input := rest } fun x hq => h x rest (hq ▸ hinput)
    exact ⟨⟨hregs, hflags, hmem⟩, hdisplay⟩

/-- Settles O45: while suspended a step is the host's turn. -/
theorem suspendedEngineEvaluatesNothing : Obligations.SuspendedEngineEvaluatesNothing := by
  intro s t w hmode hload h
  obtain rfl := Host.Outcome.next.inj ((step_of_host (.inl (by simp [hmode]))).symm.trans h)
  exact hostStep_machine hload

/-- Under the invariant a suspended engine awaits a label that is not defined. -/
theorem Inv.awaited_undefined {s : State} (inv : Inv s) {w : Label} (hmode : s.mode = .suspended w) :
    s.pc = .mostRecent ∧ LabelIndex.find s.labels w = none := by
  have := inv.cursor
  rwa [modeCursorOk, hmode] at this

/-- Settles O46: `executeNext_of_suspended`, by whether the awaited label is defined. -/
theorem executeNextWhileSuspendedOnlyChecks : Obligations.ExecuteNextWhileSuspendedOnlyChecks := by
  intro s w hmode
  rw [executeNext_of_suspended hmode]
  have waits (h : LabelIndex.find s.labels w = none) :
      (if (LabelIndex.find s.labels w).isSome then Mode.running else .suspended w) = .suspended w := by simp [h]
  refine ⟨⟨rfl, rfl, rfl⟩, rfl, rfl, rfl, rfl, rfl, rfl, ?_, waits, fun inv => waits (inv.awaited_undefined hmode).2⟩
  rintro ⟨k, hk⟩
  simp [hk]

/-- Settles O47: on an empty log `executeNext` is its answer. -/
theorem executeNextOnEmptyLogIsIdle : Obligations.ExecuteNextOnEmptyLogIsIdle := by
  intro s hmode hlog
  have answers : executeNext s = s.reply .idle := by simp [executeNext, hmode, hlog]
  rw [answers]
  exact ⟨⟨rfl, rfl, rfl⟩, ⟨rfl, rfl, rfl, rfl, rfl⟩, rfl, rfl, rfl, rfl⟩

/-! ## Inspect, save, load -/

/-- R275: the `registers` mapping names no register twice. -/
theorem registerMapping_keys_nodup (f : RegFile) : ((registerMapping f).map Prod.fst).Nodup := by
  show [Reg.A, .B, .C, .D, .E, .H, .L].Nodup
  decide

/-- Settles O49: each request is one reply, and the two mappings hold exactly what the state does. -/
theorem inspectAndSaveAreReadOnly : Obligations.InspectAndSaveAreReadOnly := by
  intro s q rest hturn hinput hq
  have hstep := step_of_request hturn hinput
  cases q with
  | line | load | quit => cases hq
  | inspect => exact ⟨_, _, hstep, rfl, fun _ => rfl, fun h => (by cases h)⟩
  | save =>
    exact ⟨_, _, hstep, rfl, fun h => (by cases h), fun _ => ⟨_, rfl, fun r v => mem_registerMapping,
      registerMapping_keys_nodup s.regs, fun hwf => ⟨fun a v => mem_memoryMapping hwf, memoryMapping_keys_nodup hwf⟩⟩⟩

/-- Settles O50: the registers named over the reset values, and the cells listed over a memory of 0x00. -/
theorem loadSetsExactlyWhatItNames : Obligations.LoadSetsExactlyWhatItNames := by
  intro s x rest hturn hinput hregs hmem
  obtain ⟨named, others⟩ := registersOf_spec hregs s.params.resetRegs
  refine ⟨_, step_of_request hturn hinput, rfl, named, others, fun a v => ?listed, fun a => ?notListed, rfl, rfl, rfl, rfl,
    rfl, rfl, ⟨rfl, rfl, rfl, rfl⟩⟩
  case listed => exact State.memRead_load_of_listed { s with input := rest } hmem
  case notListed => exact State.memRead_load_of_notListed { s with input := rest } hmem

/-- R275: loading the registers that were saved gives them back, over any reset values. -/
theorem registersOf_registerMapping (f g : RegFile) : registersOf f (registerMapping g) = g :=
  RegFile.ext_get fun r => (registersOf_spec (registerMapping_keys_nodup g) f).1 r _ (mem_registerMapping.mpr rfl)

/-- R50: a canonical memory lists no cell outside the 16-bit space. -/
theorem Memory.read_eq_zero_of_outside {m : Memory} (h : Memory.wf m) {a : Nat} (ha : 65536 ≤ a) : Memory.read m a = 0 :=
  Memory.read_eq_zero_of_notListed fun c hc => by have := (h.2 c hc).1; omega

/-- R275: loading the cells that were saved gives the memory back: the cells listed, and 0x00 elsewhere. -/
theorem memoryOf_memoryMapping {m : Memory} (h : Memory.wf m) : memoryOf (memoryMapping m) = m := by
  obtain ⟨listed, notListed⟩ := read_writes (memoryMapping_keys_nodup h) []
  have inside (w : Word) : Memory.read (memoryOf (memoryMapping m)) w.toNat = Memory.read m w.toNat := by
    by_cases hw : w ∈ (memoryMapping m).map Prod.fst
    · obtain ⟨⟨_, v⟩, hv, rfl⟩ := List.mem_map.mp hw
      exact (listed _ v hv).trans ((mem_memoryMapping h).mp hv).2.symm
    · have hzero : Memory.read m w.toNat = 0 := by
        by_contra hne
        exact hw (List.mem_map_of_mem (f := Prod.fst) ((mem_memoryMapping h).mpr ⟨hne, rfl⟩))
      rw [hzero]
      exact notListed w hw
  refine Memory.ext_read (memoryOf_wf _) h fun a => ?_
  by_cases ha : a < 65536
  · simpa [Nat.mod_eq_of_lt ha] using inside (BitVec.ofNat 16 a)
  · rw [Memory.read_eq_zero_of_outside (memoryOf_wf _) (by omega), Memory.read_eq_zero_of_outside h (by omega)]

/-- Settles O51: the two mappings of a snapshot, loaded, give back what they were made from. -/
theorem loadOfSaveRestoresRegistersAndMemory : Obligations.LoadOfSaveRestoresRegistersAndMemory := by
  intro s rest hwf hturn hinput
  refine ⟨_, _, step_of_request hturn hinput, rfl, fun u more hturn' hinput' => ⟨_, step_of_request hturn' hinput', ?_, ?_⟩⟩
  · exact registersOf_registerMapping u.params.resetRegs s.regs
  · exact memoryOf_memoryMapping hwf

/-! ## Meta-commands -/

/-- Settles O59: a line with one of the three words is its command, and each command is said by `runCommand`. -/
theorem metaCommandsAndQuit : Obligations.MetaCommandsAndQuit := by
  intro s text rest hturn
  refine ⟨fun hinput => ?line, fun hinput => step_of_request hturn hinput⟩
  have command {c : MetaCommand} (h : readLine text = .command c) :
      step s = .next (runCommand c { s with input := rest }) := by
    rw [step_of_request hturn hinput]
    simp [serve, processLine, h]
  exact ⟨fun h => command (c := .help) (by simp [readLine, h]), fun h => command (c := .quit) (by simp [readLine, h]),
    fun h => command (c := .inspect) (by simp [readLine, h])⟩

end Sys2Proof.Machine
end

section
/-! PROOFS. Reset, and what every step keeps (R31, R39, R220 to R222, R228 to R239, R290). -/

namespace Sys2Proof.Machine

/-- Settles O52: the fields of the reset state. -/
theorem resetLeavesTheStatedValues : Obligations.ResetLeavesTheStatedValues :=
  ⟨rfl, rfl, fun p => ⟨rfl, rfl, rfl, State.memRead_resetWith p, rfl, rfl, rfl, rfl, rfl, rfl⟩⟩

/-- Settles O53: memory, log and label index are empty, no walk is in progress, and every flag is false. -/
theorem resetMeetsTheInvariant : Obligations.ResetMeetsTheInvariant := by
  intro p
  exact ⟨⟨⟨List.Pairwise.nil, by simp [State.resetWith]⟩, rfl, List.nodup_nil, by simp [State.resetWith], trivial⟩,
    ⟨rfl, by simp [State.resetWith, Flags.reset], fun _ => rfl⟩⟩

/-! ## Flags -/

/-- R130: the add policy never sets S, and sets Z only on a sum of 0, which does not carry. -/
theorem addSynth_coherent (sum : Nat) :
    ((addSynth sum).s = true → (addSynth sum).cy = true) ∧ ((addSynth sum).z = true → (addSynth sum).cy = false) := by
  obtain ⟨-, hcy, hs, hz⟩ := addSynth_spec sum
  rw [hcy, hs, hz]
  refine ⟨by simp, ?_⟩
  simp only [decide_eq_true_eq, decide_eq_false_iff_not]
  omega

/-- R131: the subtract policy sets S with CY on a negative difference, and Z on 0. -/
theorem subSynth_coherent (d : Int) :
    ((subSynth d).s = true → (subSynth d).cy = true) ∧ ((subSynth d).z = true → (subSynth d).cy = false) := by
  unfold subSynth
  split
  · simp
  · split <;> simp

/-- R34: flags written by a coherent synthesis are coherent, AC being left. -/
theorem FlagsCoherent.update {f : Flags} (h : FlagsCoherent f) {y : Synth}
    (hy : (y.s = true → y.cy = true) ∧ (y.z = true → y.cy = false)) :
    FlagsCoherent (f.update (some y.cy) (some y.s) (some y.z)) :=
  ⟨h.ac, hy.1, hy.2⟩

/-- R130, R131: an instruction that writes flags writes those of a synthesis, and the others keep them. -/
theorem exec_keeps_flagsCoherent {i : Instr} {s t : State} (hs : FlagsCoherent s.flags) (h : exec i s = .next t) :
    FlagsCoherent t.flags := by
  by_cases hw : writesFlags s.params i = false
  · rwa [exec_keeps_flags h hw]
  · cases i with
    | add | adi => obtain rfl := Host.Outcome.next.inj h; exact hs.update (addSynth_coherent _)
    | sub | sui | cmp | cpi => obtain rfl := Host.Outcome.next.inj h; exact hs.update (subSynth_coherent _)
    | dcr r =>
      obtain rfl := Host.Outcome.next.inj h
      have kept : FlagsCoherent (s.setReg r (dcrResult s.params ((s.reg r).toNat - 1))).flags := by rwa [State.setReg_flags]
      exact kept.update (subSynth_coherent _)
    | inr r =>
      obtain rfl := Host.Outcome.next.inj h
      have hpolicy : s.params.inrFlags = .addPolicy := by simpa [writesFlags] using hw
      rw [State.resolve_flags, State.setInrFlags_of_addPolicy (by rwa [State.setReg_params]), State.setFlags_flags,
        State.setReg_flags]
      exact hs.update (addSynth_coherent _)
    | _ => exact absurd rfl hw

/-- Settles O55: the host and the end of a walk keep the flags, and an instruction keeps them coherent. -/
theorem stepKeepsFlagsCoherent : Obligations.StepKeepsFlagsCoherent := by
  intro s t hs h
  rcases step_cases s with ⟨-, hstep⟩ | ⟨k, e, -, -, -, hstep⟩ | ⟨-, -, hstep⟩ | ⟨k, -, -, -, hstep⟩ <;> rw [hstep] at h
  · obtain rfl := Host.Outcome.next.inj h
    rwa [hostStep_flags]
  · exact exec_keeps_flagsCoherent hs h
  · obtain rfl := Host.Outcome.next.inj h
    exact hs
  · cases h

/-! ## Log and streams -/

theorem OnlyGrows.trans {s t u : State} (h : OnlyGrows s t) (k : OnlyGrows t u) : OnlyGrows s u where
  log := h.log.trans k.log
  labels l j hl := k.labels l j (h.labels l j hl)
  display := h.display.trans k.display
  errors := h.errors.trans k.errors
  replies := h.replies.trans k.replies
  params := k.params.trans h.params

/-- An operation that leaves log, label index and parameters only has its streams to show. -/
theorem OnlyGrows.of_streams {s t : State} (hlog : t.log = s.log) (hlabels : t.labels = s.labels)
    (hparams : t.params = s.params) (hdisplay : s.display <+: t.display) (herrors : s.errors <+: t.errors)
    (hreplies : s.replies <+: t.replies) : OnlyGrows s t :=
  ⟨hlog ▸ List.prefix_refl _, fun _ _ h => hlabels ▸ h, hdisplay, herrors, hreplies, hparams⟩

/-- An operation that leaves all of them does not even have that. -/
theorem OnlyGrows.of_same {s t : State} (hlog : t.log = s.log) (hlabels : t.labels = s.labels)
    (hparams : t.params = s.params) (h : SameStreams s t) : OnlyGrows s t :=
  .of_streams hlog hlabels hparams (h.display ▸ List.prefix_refl _) (h.errors ▸ List.prefix_refl _)
    (h.replies ▸ List.prefix_refl _)

theorem OnlyGrows.reply (s : State) (r : Reply) : OnlyGrows s (s.reply r) :=
  .of_streams rfl rfl rfl (List.prefix_refl _) (List.prefix_refl _) (List.prefix_append _ _)

theorem OnlyGrows.report (s : State) (err : ErrorReport) : OnlyGrows s (s.report err) :=
  .of_streams rfl rfl rfl (List.prefix_refl _) (List.prefix_append _ _) (List.prefix_append _ _)

/-- R39: what a handler does to log and streams. -/
theorem HandlerFrame.onlyGrows {s u : State} (h : HandlerFrame s u) : OnlyGrows s u :=
  .of_streams h.engine.log h.engine.labels h.engine.params h.display h.errors h.replies

/-- R229: a request adds at most the answer of a suspension. -/
theorem OnlyGrows.resolve (s : State) (q : Option Label) : OnlyGrows s (s.resolve q) := by
  refine .of_streams (s.resolve_log q) (s.resolve_labels q) (s.resolve_params q) ?_ ?_ ?_
  · rw [State.resolve_display]
  · rw [State.resolve_errors]
  · rcases s.resolve_cases q with ⟨-, h⟩ | ⟨l, k, -, -, h⟩ | ⟨l, -, -, h⟩ <;> rw [h]
    exact List.prefix_append _ _

/-- R223: an append adds its entry and its label. -/
theorem OnlyGrows.addInstruction {s : State} {e : Entry} (h : ∀ l, e.label = some l → LabelIndex.find s.labels l = none) :
    OnlyGrows s (addInstruction e s).2 := by
  rw [addInstruction_of_newLabel h]
  exact ⟨List.prefix_append _ _, fun l k hl => labelsAfterAppend_keeps_label hl e _, List.prefix_refl _, List.prefix_refl _,
    List.prefix_append _ _, rfl⟩

theorem OnlyGrows.executeNext (s : State) : OnlyGrows s (executeNext s) := by
  obtain ⟨-, hdisplay, hparams, hlog, hlabels, herrors, -, hreplies⟩ := executeNext_frame s
  exact .of_streams hlog hlabels hparams (hdisplay ▸ List.prefix_refl _) (herrors ▸ List.prefix_refl _) hreplies

/-- R237: a record makes a report, or an append. -/
theorem OnlyGrows.processRecord (r : Record) (s : State) : OnlyGrows s (processRecord r s) := by
  rcases processRecord_cases r s with ⟨err, -, h⟩ | ⟨e, l, k, -, -, -, h⟩ | ⟨e, -, hnew, h⟩ <;> rw [h]
  · exact .report s err
  · exact .report s _
  · exact (OnlyGrows.addInstruction hnew).trans (.executeNext _)

/-- R282: every request answers, makes a record of a line, or leaves log and streams. -/
theorem OnlyGrows.serve (q : HostRequest) (s : State) : OnlyGrows s (serve q s) := by
  cases q with
  | line text =>
    show OnlyGrows s (processLine text s)
    rcases processLine_cases text s with h | h | h | ⟨r, -, h⟩ <;> rw [h]
    · exact .of_same rfl rfl rfl ⟨rfl, rfl, rfl, rfl⟩
    · exact .of_same rfl rfl rfl ⟨rfl, rfl, rfl, rfl⟩
    · exact .reply s _
    · exact .processRecord r s
  | inspect => exact .reply s _
  | save => exact .reply s _
  | load x => exact .of_same rfl rfl rfl ⟨rfl, rfl, rfl, rfl⟩
  | quit => exact .of_same rfl rfl rfl ⟨rfl, rfl, rfl, rfl⟩

/-- R280: the host's turn serves at most one request. -/
theorem OnlyGrows.hostStep (s : State) : OnlyGrows s (hostStep s) := by
  unfold Machine.hostStep
  split
  · exact .of_same rfl rfl rfl ⟨rfl, rfl, rfl, rfl⟩
  · next q rest _ =>
    have taken : OnlyGrows s { s with input := rest } := .of_same rfl rfl rfl ⟨rfl, rfl, rfl, rfl⟩
    exact taken.trans (.serve q _)

/-- Settles O58: in each case of a step. -/
theorem logAndStreamsOnlyGrow : Obligations.LogAndStreamsOnlyGrow := by
  intro s t h
  rcases step_cases s with ⟨-, hstep⟩ | ⟨k, e, -, -, -, hstep⟩ | ⟨-, -, hstep⟩ | ⟨k, -, -, -, hstep⟩ <;> rw [hstep] at h
  · obtain rfl := Host.Outcome.next.inj h
    exact .hostStep s
  · obtain ⟨u, q, hexec, frame, -, -⟩ := exec_cases e.instr s
    obtain rfl := Host.Outcome.next.inj (hexec.symm.trans h)
    exact frame.onlyGrows.trans (.resolve u q)
  · obtain rfl := Host.Outcome.next.inj h
    exact .of_streams rfl rfl rfl (List.prefix_refl _) (List.prefix_refl _) (List.prefix_append _ _)
  · cases h

/-! ## The invariant -/

/-- A change of machine state and streams keeps the invariant, if memory stays canonical and the new mode and cursor meet
their part. -/
theorem Inv.of_sameLog {s t : State} (inv : Inv s) (hmem : Memory.wf t.mem) (hlog : t.log = s.log)
    (hlabels : t.labels = s.labels) (hparams : t.params = s.params) (hcursor : modeCursorOk t) : Inv t where
  memory := hmem
  labels := by rw [hlabels, hlog, inv.labels]
  unique := by rw [hlabels]; exact inv.unique
  entries := by rw [hlog, hparams]; exact inv.entries
  cursor := hcursor

/-- R221, R229: a walk in progress has its cursor in 0..len(LOG). -/
theorem modeCursorOk_of_walk {s : State} {k : Nat} (hmode : s.mode = .running) (hpc : s.pc = .index k)
    (hk : k ≤ s.log.length) : modeCursorOk s := by
  simpa [modeCursorOk, hmode, hpc] using hk

/-- R221: a suspended engine is between walks and awaits an undefined label. -/
theorem modeCursorOk_of_suspended {s : State} {w : Label} (hmode : s.mode = .suspended w) (hpc : s.pc = .mostRecent)
    (hw : LabelIndex.find s.labels w = none) : modeCursorOk s := by
  simp [modeCursorOk, hmode, hpc, hw]

/-- R221: between walks, while `RUNNING`, nothing is asked. -/
theorem modeCursorOk_of_idle {s : State} (hmode : s.mode = .running) (hpc : s.pc = .mostRecent) : modeCursorOk s := by
  simp [modeCursorOk, hmode, hpc]

/-- R229: under the invariant a walk's cursor is in 0..len(LOG). -/
theorem Inv.walk_le {s : State} (inv : Inv s) {k : Nat} (hmode : s.mode = .running) (hpc : s.pc = .index k) :
    k ≤ s.log.length := by
  simpa [modeCursorOk, hmode, hpc] using inv.cursor

/-- R233: under the invariant, when the host's turn comes no walk is in progress. -/
theorem Inv.pc_of_takesRequest {s : State} (inv : Inv s) (h : TakesRequest s) : s.pc = .mostRecent := by
  cases hmode : s.mode with
  | running => exact h.resolve_left (by simp [hmode])
  | suspended w => exact (inv.awaited_undefined hmode).1

/-- R222: under the invariant a defined label names an index of the log. -/
theorem Inv.label_lt {s : State} (inv : Inv s) {l : Label} {k : Nat} (h : LabelIndex.find s.labels l = some k) :
    k < s.log.length := by
  obtain ⟨e, he, -⟩ := mem_labelIndexFrom_zero.mp (inv.labels ▸ LabelIndex.mem_of_find h)
  exact (List.getElem?_eq_some_iff.mp he).1

/-! ### An instruction -/

/-- A handler keeps the invariant: it leaves the engine alone and memory canonical. -/
theorem HandlerFrame.inv {s u : State} (h : HandlerFrame s u) (inv : Inv s) : Inv u := by
  refine inv.of_sameLog (h.memory inv.memory) h.engine.log h.engine.labels h.engine.params ?_
  have := inv.cursor
  rwa [modeCursorOk, ← h.engine.mode, ← h.pc, ← h.engine.log, ← h.engine.labels] at this

/-- R229, R231: resolving the request of the entry at the cursor: on to the next index, to a label's index, or suspended. -/
theorem Inv.resolve {s : State} (inv : Inv s) {k : Nat} (hmode : s.mode = .running) (hpc : s.pc = .index k)
    (hk : k < s.log.length) (q : Option Label) : Inv (s.resolve q) := by
  rcases s.resolve_cases q with ⟨-, h⟩ | ⟨l, j, -, hl, h⟩ | ⟨l, -, hl, h⟩ <;> rw [h]
  · exact inv.of_sameLog inv.memory rfl rfl rfl (modeCursorOk_of_walk hmode (congrArg Cursor.next hpc) hk)
  · exact inv.of_sameLog inv.memory rfl rfl rfl (modeCursorOk_of_walk hmode rfl (inv.label_lt hl).le)
  · exact inv.of_sameLog inv.memory rfl rfl rfl (modeCursorOk_of_suspended rfl rfl hl)

/-- R228: an instruction evaluated in a walk keeps the invariant. -/
theorem exec_keeps_inv {i : Instr} {s t : State} {k : Nat} (inv : Inv s) (hmode : s.mode = .running)
    (hpc : s.pc = .index k) (hk : k < s.log.length) (h : exec i s = .next t) : Inv t := by
  obtain ⟨u, q, hexec, frame, -, -⟩ := exec_cases i s
  obtain rfl := Host.Outcome.next.inj (hexec.symm.trans h)
  exact (frame.inv inv).resolve (frame.engine.mode.trans hmode) (frame.pc.trans hpc) (by rwa [frame.engine.log]) q

/-! ### A request -/

/-- R222: a new label keeps the names of the label index unique. -/
theorem labelsAfterAppend_unique {ls : LabelIndex} {e : Entry} (hu : (ls.map Prod.fst).Nodup)
    (hnew : ∀ l, e.label = some l → LabelIndex.find ls l = none) (k : Nat) :
    ((labelsAfterAppend ls e k).map Prod.fst).Nodup := by
  cases hl : e.label with
  | none => simpa [labelsAfterAppend, hl] using hu
  | some l =>
    have hnot : l ∉ ls.map Prod.fst := LabelIndex.find_eq_none_iff.mp (hnew l hl)
    simpa [labelsAfterAppend, hl, List.nodup_append] using ⟨hu, fun a b hab heq => hnot (heq ▸ List.mem_map_of_mem hab)⟩

/-- R220 to R224: the append of a validated entry between walks; the awaited label, if it is not the entry's own, stays
undefined. -/
theorem Inv.addInstruction {s : State} {e : Entry} (inv : Inv s) (hpc : s.pc = .mostRecent)
    (he : e.wellFormed s.params = true) (hnew : ∀ l, e.label = some l → LabelIndex.find s.labels l = none) :
    Inv (addInstruction e s).2 := by
  rw [addInstruction_of_newLabel hnew]
  refine ⟨inv.memory, ?labels, labelsAfterAppend_unique inv.unique hnew _, ?entries, ?cursor⟩
  case labels => simp [labelIndexFrom_append, ← inv.labels]
  case entries => exact List.forall_mem_append.mpr ⟨inv.entries, List.forall_mem_singleton.mpr he⟩
  case cursor =>
    cases hmode : s.mode with
    | running => exact modeCursorOk_of_idle rfl hpc
    | suspended w =>
      by_cases hw : e.label = some w
      · exact modeCursorOk_of_idle (modeAfterAppend_of_awaited hw) hpc
      · refine modeCursorOk_of_suspended (modeAfterAppend_of_other hw) hpc ?_
        exact (find_labelsAfterAppend_of_ne hw _).trans (inv.awaited_undefined hmode).2

/-- R226, R234, R235: `executeNext` between walks starts a walk at an index of the log, or starts none. -/
theorem Inv.executeNext {s : State} (inv : Inv s) (hpc : s.pc = .mostRecent) : Inv (executeNext s) := by
  obtain ⟨hmachine, -, hparams, hlog, hlabels, -⟩ := executeNext_frame s
  refine inv.of_sameLog (hmachine.mem ▸ inv.memory) hlog hlabels hparams ?_
  cases hmode : s.mode with
  | running =>
    rcases List.eq_nil_or_concat s.log with hnil | ⟨es, e, hcons⟩
    · have idle : Machine.executeNext s = s.reply .idle := by simp [Machine.executeNext, hmode, hnil]
      rw [idle]
      exact modeCursorOk_of_idle hmode hpc
    · rw [executeNext_of_running hmode (by simpa using hcons)]
      exact modeCursorOk_of_walk hmode rfl (by simp [hcons])
  | suspended w =>
    have undefined := (inv.awaited_undefined hmode).2
    rw [executeNext_of_suspended hmode]
    exact modeCursorOk_of_suspended (by simp [undefined]) hpc undefined

/-- R237: the record of a text line, presented between walks. -/
theorem Inv.processRecord {s : State} {text : String} {r : Record} (inv : Inv s) (hpc : s.pc = .mostRecent)
    (hline : readLine text = .record r) : Inv (processRecord r s) := by
  rcases processRecord_cases r s with ⟨err, -, h⟩ | ⟨e, l, k, -, -, -, h⟩ | ⟨e, hdecode, hnew, h⟩ <;> rw [h]
  · exact inv.of_sameLog inv.memory rfl rfl rfl inv.cursor
  · exact inv.of_sameLog inv.memory rfl rfl rfl inv.cursor
  · have appended := inv.addInstruction hpc (decodedLineIsWellFormed s.params text r e hline hdecode) hnew
    refine appended.executeNext ?_
    rwa [addInstruction_of_newLabel hnew]

/-- R282: every request, taken between walks. -/
theorem Inv.serve {s : State} (inv : Inv s) (hpc : s.pc = .mostRecent) (q : HostRequest) : Inv (serve q s) := by
  cases q with
  | line text =>
    show Inv (processLine text s)
    rcases processLine_cases text s with h | h | h | ⟨r, hline, h⟩ <;> rw [h]
    · exact inv
    · exact inv.of_sameLog inv.memory rfl rfl rfl inv.cursor
    · exact inv.of_sameLog inv.memory rfl rfl rfl inv.cursor
    · exact inv.processRecord hpc hline
  | load x => exact inv.of_sameLog (memoryOf_wf x.memory) rfl rfl rfl inv.cursor
  | inspect => exact inv.of_sameLog inv.memory rfl rfl rfl inv.cursor
  | save => exact inv.of_sameLog inv.memory rfl rfl rfl inv.cursor
  | quit => exact inv.of_sameLog inv.memory rfl rfl rfl inv.cursor

/-- R280: the host's turn. -/
theorem Inv.hostStep {s : State} (inv : Inv s) (hturn : TakesRequest s) : Inv (hostStep s) := by
  unfold Machine.hostStep
  split
  · exact inv
  · next q rest _ =>
    have taken : Inv { s with input := rest } := inv.of_sameLog inv.memory rfl rfl rfl inv.cursor
    exact taken.serve (inv.pc_of_takesRequest hturn) q

/-! ### A step -/

/-- Settles O54: the host's turn, an instruction, and the end of a walk each keep the invariant. -/
theorem stepKeepsTheInvariant : Obligations.StepKeepsTheInvariant := by
  intro s t inv h
  rcases step_cases s with ⟨hturn, hstep⟩ | ⟨k, e, hmode, hpc, he, hstep⟩ | ⟨hmode, -, hstep⟩ | ⟨k, -, -, -, hstep⟩ <;>
    rw [hstep] at h
  · obtain rfl := Host.Outcome.next.inj h
    exact inv.hostStep hturn
  · exact exec_keeps_inv inv hmode hpc (List.getElem?_eq_some_iff.mp he).1 h
  · obtain rfl := Host.Outcome.next.inj h
    exact inv.of_sameLog inv.memory rfl rfl rfl (modeCursorOk_of_idle hmode rfl)
  · cases h

/-- Settles O56: the one step that answers no next state has its cursor past the end of the log. -/
theorem invariantStepsNeverStop : Obligations.InvariantStepsNeverStop := by
  intro s inv
  rcases step_cases s with ⟨-, hstep⟩ | ⟨k, e, -, -, -, hstep⟩ | ⟨-, -, hstep⟩ | ⟨k, hmode, hpc, hlt, -⟩
  · exact ⟨_, hstep⟩
  · obtain ⟨u, q, hexec, -⟩ := exec_cases e.instr s
    exact ⟨_, hstep.trans hexec⟩
  · exact ⟨_, hstep⟩
  · exact absurd (inv.walk_le hmode hpc) (by omega)

end Sys2Proof.Machine
end
